-- ==== Sys2Proof/Word.lean ====
section
/-! DEFINITION. The word types of the block (00_scope R5, the width parameters). Bit 0 is the least
significant bit of every value and every value is unsigned (00_scope R8, R9). -/

namespace Sys2Proof

/-- `REG_W` = `DRAW_OP_W` = 8 bits: a general register, an immediate, a byte of memory, an operand of `Draw`. -/
abbrev Byte := BitVec 8

/-- `WORD_W` = `PC_W` = `STACK_W` = 16 bits: an instruction word, the program counter, a call-stack entry. -/
abbrev Word := BitVec 16

/-- `ADDR_W` = 12 bits: the address operand of a jump or a call. -/
abbrev Addr := BitVec 12

/-- A field of four bits: the opcode family and the secondary discriminator (00_scope R9). -/
abbrev Nibble := BitVec 4

end Sys2Proof
end

