-- ==== Sys2Proof/Machine/Flags.lean ====
section
/-! DEFINITION. The 8-bit arithmetic and the two computations of `CF` (44_alu R177): each result is computed
exactly and then narrowed. The old `CF` is an input of neither. -/

namespace Sys2Proof.Machine

/-- The exact sum of two unsigned bytes, 0 to 510 (44_alu R175). -/
def wideSum (a b : Byte) : Nat := a.toNat + b.toNat

/-- The sum modulo 256 (43_immediate R161, 44_alu R175). -/
def addResult (a b : Byte) : Byte := BitVec.ofNat 8 (wideSum a b)

/-- `CF` of the carry-tracked add: the exact sum exceeds 255 (44_alu R175). -/
def addCarry (a b : Byte) : Bool := decide (255 < wideSum a b)

/-- The exact difference of two unsigned bytes, -255 to 255 (44_alu R176). -/
def wideDiff (a b : Byte) : Int := (a.toNat : Int) - (b.toNat : Int)

/-- The difference modulo 256, in 0 to 255 (44_alu R176). -/
def subResult (a b : Byte) : Byte := BitVec.ofInt 8 (wideDiff a b)

/-- `CF` of the borrow-tracked subtract: the exact difference is negative (44_alu R176). -/
def subBorrow (a b : Byte) : Bool := decide (wideDiff a b < 0)

end Sys2Proof.Machine
end

