-- ==== Sys2Proof/Syntax.lean ====
section
/-! DEFINITION. The fifteen instructions of the closed catalogue (30_encoding R74, R76), one constructor for
each row of spec/opcode_table.json, in the table's order. A decoded instruction is a value, not state
(10_state R33). -/

namespace Sys2Proof

/-- A register index as the register file receives it: a number, range-checked at its use and never reduced
(10_state R22, 30_encoding R73; log entry 5). -/
abbrev RegIdx := Nat

/-- One decoded instruction with its operands (00_scope R11): `x` and `y` are register indexes, `nn` an 8-bit
immediate, `nnn` a 12-bit address. -/
inductive Instr where
  /-- `CLS` (41_display R120). -/
  | cls
  /-- `RET` (42_control_flow R140). -/
  | ret
  /-- `JP nnn` (42_control_flow R141). -/
  | jp (nnn : Addr)
  /-- `CALL nnn` (42_control_flow R142). -/
  | call (nnn : Addr)
  /-- `SE Vx, nn` (42_control_flow R143). -/
  | seImm (x : RegIdx) (nn : Byte)
  /-- `SNE Vx, nn` (42_control_flow R144). -/
  | sneImm (x : RegIdx) (nn : Byte)
  /-- `SE Vx, Vy` (42_control_flow R145). -/
  | seReg (x y : RegIdx)
  /-- `LD Vx, nn` (43_immediate R160). -/
  | ldImm (x : RegIdx) (nn : Byte)
  /-- `ADD Vx, nn` (43_immediate R161). -/
  | addImm (x : RegIdx) (nn : Byte)
  /-- `LD Vx, Vy` (44_alu R171). -/
  | ldReg (x y : RegIdx)
  /-- `OR Vx, Vy` (44_alu R172). -/
  | or (x y : RegIdx)
  /-- `AND Vx, Vy` (44_alu R173). -/
  | and (x y : RegIdx)
  /-- `XOR Vx, Vy` (44_alu R174). -/
  | xor (x y : RegIdx)
  /-- `ADD Vx, Vy` (44_alu R175). -/
  | addReg (x y : RegIdx)
  /-- `SUB Vx, Vy` (44_alu R176). -/
  | sub (x y : RegIdx)
  deriving DecidableEq, Repr

/-- The register indexes an instruction names, `x` before `y` (40_fetch_decode_dispatch R100 step 3). -/
def Instr.regs : Instr → List RegIdx
  | .cls | .ret | .jp _ | .call _ => []
  | .seImm x _ | .sneImm x _ | .ldImm x _ | .addImm x _ => [x]
  | .seReg x y | .ldReg x y | .or x y | .and x y | .xor x y | .addReg x y | .sub x y => [x, y]

/-- The mnemonic of spec/opcode_table.json (30_encoding R83 gives the spelling of the overloaded forms). -/
def Instr.mnemonic : Instr → String
  | .cls => "CLS"
  | .ret => "RET"
  | .jp _ => "JP"
  | .call _ => "CALL"
  | .seImm _ _ => "SE_imm"
  | .sneImm _ _ => "SNE_imm"
  | .seReg _ _ => "SE_reg"
  | .ldImm _ _ => "LD_imm"
  | .addImm _ _ => "ADD_imm"
  | .ldReg _ _ => "LD_reg"
  | .or _ _ => "OR"
  | .and _ _ => "AND"
  | .xor _ _ => "XOR"
  | .addReg _ _ => "ADD_reg"
  | .sub _ _ => "SUB"

end Sys2Proof
end

