-- ==== Sys2Proof/WellFormed.lean ====
section
/-! DEFINITION. When an instruction has an encoding: each register index fits its field of four bits
(30_encoding R72). The immediate and the address have the width of their field by type. -/

namespace Sys2Proof

/-- A register index fits the four bits of `w[11:8]` or `w[7:4]`. -/
abbrev RegIdx.fits (r : RegIdx) : Bool := decide (r < 16)

/-- Every register index the instruction names fits its field. -/
def Instr.wf (i : Instr) : Bool := i.regs.all RegIdx.fits

end Sys2Proof
end

