-- ==== Sys2Proof/Decode.lean ====
section
/-! DEFINITION. `Decode` (30_encoding R74), total on all 65536 words; the opcode table by mask and match (R76);
the encoder, written from the same table; the byte order of an instruction (20_memory R53). Every number is
decision D1, every field position decision D2 of the spec. -/

namespace Sys2Proof

/-- `w[15:12]`, the opcode family (00_scope R12, 30_encoding R72). -/
def family (w : Word) : Nibble := w.extractLsb' 12 4

/-- `x = w[11:8]` (30_encoding R72). -/
def fieldX (w : Word) : RegIdx := (w.extractLsb' 8 4).toNat

/-- `y = w[7:4]` (30_encoding R72). -/
def fieldY (w : Word) : RegIdx := (w.extractLsb' 4 4).toNat

/-- `n = w[3:0]`, the secondary discriminator (30_encoding R72). -/
def fieldN (w : Word) : Nibble := w.extractLsb' 0 4

/-- `nn = w[7:0]` (30_encoding R72). -/
def fieldNN (w : Word) : Byte := w.extractLsb' 0 8

/-- `nnn = w[11:0]` (30_encoding R72). -/
def fieldNNN (w : Word) : Addr := w.extractLsb' 0 12

/-- What `Decode` yields: an instruction, or the failure that carries the raw word (30_encoding R74). -/
inductive Decoded where
  /-- The word selects an instruction of the catalogue. -/
  | instr (i : Instr)
  /-- The word selects no row of the table (30_encoding R80). -/
  | unimplementedOpcode (w : Word)
  deriving DecidableEq, Repr

/-- Family 0x0: the whole word is matched (30_encoding R77). -/
def decodeFamily0 (w : Word) : Decoded :=
  if w = 0x00E0#16 then .instr .cls
  else if w = 0x00EE#16 then .instr .ret
  else .unimplementedOpcode w

/-- Family 0x5: the low nibble must be 0 (30_encoding R78). -/
def decodeFamily5 (w : Word) : Decoded :=
  if fieldN w = 0x0#4 then .instr (.seReg (fieldX w) (fieldY w)) else .unimplementedOpcode w

/-- Family 0x8: the low nibble selects one of six (30_encoding R79). -/
def decodeFamily8 (w : Word) : Decoded :=
  match fieldN w with
  | 0x0#4 => .instr (.ldReg (fieldX w) (fieldY w))
  | 0x1#4 => .instr (.or (fieldX w) (fieldY w))
  | 0x2#4 => .instr (.and (fieldX w) (fieldY w))
  | 0x3#4 => .instr (.xor (fieldX w) (fieldY w))
  | 0x4#4 => .instr (.addReg (fieldX w) (fieldY w))
  | 0x5#4 => .instr (.sub (fieldX w) (fieldY w))
  | _ => .unimplementedOpcode w

/-- `Decode(w)` (30_encoding R74): by family, then by the low nibble; it reads no state. -/
def decode (w : Word) : Decoded :=
  match family w with
  | 0x0#4 => decodeFamily0 w
  | 0x1#4 => .instr (.jp (fieldNNN w))
  | 0x2#4 => .instr (.call (fieldNNN w))
  | 0x3#4 => .instr (.seImm (fieldX w) (fieldNN w))
  | 0x4#4 => .instr (.sneImm (fieldX w) (fieldNN w))
  | 0x5#4 => decodeFamily5 w
  | 0x6#4 => .instr (.ldImm (fieldX w) (fieldNN w))
  | 0x7#4 => .instr (.addImm (fieldX w) (fieldNN w))
  | 0x8#4 => decodeFamily8 w
  | _ => .unimplementedOpcode w

/-- The word of two bytes in memory order: the first is the high byte (20_memory R53, decision D4). -/
def wordOfBytes (b0 b1 : Byte) : Word := b0 ++ b1

/-- The high byte `w[15:8]`, which stands at the lower address (20_memory R53). -/
def highByte (w : Word) : Byte := w.extractLsb' 8 8

/-- The low byte `w[7:0]`, which stands at the higher address (20_memory R53). -/
def lowByte (w : Word) : Byte := w.extractLsb' 0 8

/-- What decoding a byte string yields. -/
inductive DecodedBytes where
  /-- The first two bytes are an instruction; the rest follows it. -/
  | instr (i : Instr) (rest : List Byte)
  /-- The first two bytes select no row of the table. -/
  | unimplementedOpcode (w : Word)
  /-- Fewer than two bytes: no instruction word (30_encoding R70; log entry 11). -/
  | truncated
  deriving DecidableEq, Repr

/-- Decode the instruction at the head of a byte string, total on any bytes. -/
def decodeBytes : List Byte → DecodedBytes
  | b0 :: b1 :: rest =>
    match decode (wordOfBytes b0 b1) with
    | .instr i => .instr i rest
    | .unimplementedOpcode w => .unimplementedOpcode w
  | _ => .truncated

/-! The opcode table of 30_encoding R76. -/

/-- One row of the table: a word selects it when its bits under the mask are the pattern (column "match"). -/
structure OpcodeRow where
  mnemonic : String
  mask : Word
  pattern : Word
  deriving DecidableEq, Repr

/-- `(w and mask) == match` (30_encoding R76). -/
def OpcodeRow.selects (r : OpcodeRow) (w : Word) : Bool := w &&& r.mask == r.pattern

/-- The fifteen rows, in the table's order (30_encoding R76). -/
def opcodeTable : List OpcodeRow :=
  [⟨"CLS", 0xFFFF, 0x00E0⟩, ⟨"RET", 0xFFFF, 0x00EE⟩, ⟨"JP", 0xF000, 0x1000⟩, ⟨"CALL", 0xF000, 0x2000⟩,
   ⟨"SE_imm", 0xF000, 0x3000⟩, ⟨"SNE_imm", 0xF000, 0x4000⟩, ⟨"SE_reg", 0xF00F, 0x5000⟩] ++
  [⟨"LD_imm", 0xF000, 0x6000⟩, ⟨"ADD_imm", 0xF000, 0x7000⟩, ⟨"LD_reg", 0xF00F, 0x8000⟩,
   ⟨"OR", 0xF00F, 0x8001⟩, ⟨"AND", 0xF00F, 0x8002⟩, ⟨"XOR", 0xF00F, 0x8003⟩,
   ⟨"ADD_reg", 0xF00F, 0x8004⟩, ⟨"SUB", 0xF00F, 0x8005⟩]

/-! The encoder. -/

/-- Format A (30_encoding R71). -/
def formatA (f : Nibble) (nnn : Addr) : Word := f ++ nnn

/-- Format RI (30_encoding R71). -/
def formatRI (f : Nibble) (x : RegIdx) (nn : Byte) : Word := f ++ (BitVec.ofNat 4 x ++ nn)

/-- Format RR (30_encoding R71). -/
def formatRR (f : Nibble) (x y : RegIdx) (n : Nibble) : Word :=
  f ++ (BitVec.ofNat 4 x ++ (BitVec.ofNat 4 y ++ n))

/-- The word of an instruction, from the patterns of 30_encoding R76; for a well-formed instruction no bit of
an operand is dropped. -/
def encode : Instr → Word
  | .cls => 0x00E0#16
  | .ret => 0x00EE#16
  | .jp nnn => formatA 0x1#4 nnn
  | .call nnn => formatA 0x2#4 nnn
  | .seImm x nn => formatRI 0x3#4 x nn
  | .sneImm x nn => formatRI 0x4#4 x nn
  | .seReg x y => formatRR 0x5#4 x y 0x0#4
  | .ldImm x nn => formatRI 0x6#4 x nn
  | .addImm x nn => formatRI 0x7#4 x nn
  | .ldReg x y => formatRR 0x8#4 x y 0x0#4
  | .or x y => formatRR 0x8#4 x y 0x1#4
  | .and x y => formatRR 0x8#4 x y 0x2#4
  | .xor x y => formatRR 0x8#4 x y 0x3#4
  | .addReg x y => formatRR 0x8#4 x y 0x4#4
  | .sub x y => formatRR 0x8#4 x y 0x5#4

/-- The two bytes of an instruction in memory order (20_memory R53). -/
def encodeBytes (i : Instr) : List Byte := [highByte (encode i), lowByte (encode i)]

/-! The host's view of the decoder. -/

/-- The instruction word whose bits are `w`, as the opcode table numbers them: every instruction is one word
(30_encoding R70), and the bits above `nbits` are 0. -/
def tableWord (nbits w : Nat) : Word := BitVec.ofNat 16 (w % 2 ^ nbits)

/-- The instruction the decoder reads from the table's word, laid out as memory holds it. -/
def decodeTableWord (nbits w : Nat) : Option Instr :=
  match decodeBytes [highByte (tableWord nbits w), lowByte (tableWord nbits w)] with
  | .instr i _ => some i
  | .unimplementedOpcode _ => none
  | .truncated => none

end Sys2Proof
end

