-- ==== Sys2Proof/Config.lean ====
section
/-! DEFINITION. The implementation parameters of 00_scope R5 at the values this hardware takes (log entry 1).
The widths are the types of Word.lean; `OPCODE_MAP` is `decode` and `opcodeTable` of Decode.lean. The spec
leaves no value undefined, so there is no free value here. -/

namespace Sys2Proof

/-- `NREGS`: the number of general registers (10_state R21, decision D7). -/
@[simp] abbrev Config.nregs : Nat := 16

/-- `SLOT`: the bytes of one instruction slot (10_state R25, decision D5). -/
@[simp] abbrev Config.slot : Word := 2

/-- `CALL_PUSH_OFFSET`: what `CALL` adds to its own address to form the pushed return address
(42_control_flow R142, decision D6). -/
@[simp] abbrev Config.callPushOffset : Word := 2

/-- `BASE`: where `Load` places the image, and the `pc` it sets (20_memory R51). -/
@[simp] abbrev Config.base : Nat := 512

/-- `MEM_SIZE`: the number of bytes of memory (20_memory R50, decision D12). -/
@[simp] abbrev Config.memSize : Nat := 4096

/-- `MEM_INIT`: the byte each address holds at power-on, 0 everywhere (10_state R35, decision D12; log entry 2). -/
@[simp] abbrev Config.memInit (_addr : Nat) : Byte := 0

/-- `STACK_DEPTH`: the greatest number of call-stack entries; `none` is unbounded (10_state R30, decision D15). -/
@[simp] abbrev Config.stackDepth : Option Nat := none

/-- `DISP_W`: the extent of the x axis in pixels (10_state R32, decision D17). -/
@[simp] abbrev Config.dispW : Nat := 64

/-- `DISP_H`: the extent of the y axis in pixels (10_state R32, decision D17). -/
@[simp] abbrev Config.dispH : Nat := 32

end Sys2Proof
end

