-- ==== Sys2Proof/Machine/State.lean ====
section
/-! DEFINITION. The whole state of the block (10_state R20), its value after power-on (10_state R35,
70_reset_and_hazards R230), and the named faults (60_exceptions R200). -/

namespace Sys2Proof.Machine

/-- `mem` (10_state R31) as a list of cells in one canonical form: addresses strictly rising and below
`MEM_SIZE`, no cell equal to `MEM_INIT` at its address, which is what an unlisted address reads as
(log entry 2). -/
abbrev Memory := List Host.Cell

/-- One row of the display plane, indexed by `x`. -/
abbrev PixelRow := Vector Bool Config.dispW

/-- The display plane (10_state R32): its rows, indexed by `y`; a pixel is on when it is `true`. -/
abbrev Plane := Vector PixelRow Config.dispH

/-- A row with every pixel off. -/
def PixelRow.off : PixelRow := Vector.replicate Config.dispW false

/-- The plane with every pixel off. -/
def Plane.off : Plane := Vector.replicate Config.dispH PixelRow.off

/-- The state of the block: these six items and nothing else (10_state R20). -/
structure State where
  /-- `V[0]` .. `V[15]`, the general registers (10_state R21). -/
  v : Vector Byte Config.nregs
  /-- `pc`, the program counter (10_state R24). -/
  pc : Word
  /-- `CF`, the carry/borrow flag, 1 is `true` (10_state R27). -/
  cf : Bool
  /-- `stack`, the call stack, the last element is the top (10_state R30). -/
  stack : List Word
  /-- `mem`, the memory (10_state R31). -/
  mem : Memory
  /-- `px(x, y)`, the display plane (10_state R32). -/
  display : Plane
  deriving DecidableEq, Repr

/-- The state right after `PowerOn` (10_state R35, 70_reset_and_hazards R230; log entry 6). -/
def State.reset : State where
  v := Vector.replicate Config.nregs 0
  pc := 0
  cf := false
  stack := []
  mem := []
  display := Plane.off

/-- The closed list of faults (60_exceptions R200). A fault is the outcome of the operation that raised it; the
state stays as it was before that operation (60_exceptions R209; log entry 4). -/
inductive Fault where
  /-- Raised by `Step` executing `RET` on an empty call stack (60_exceptions R201). Safe: the spec's own fault. -/
  | stackUnderflow
  /-- Raised by an instruction that names a register index not below `NREGS` (60_exceptions R203). Safe: the
  spec's own fault; with `NREGS` = 16 no decoded instruction raises it. -/
  | registerIndexOutOfRange (i : RegIdx)
  /-- Raised by `Step` at decode, with the raw word (60_exceptions R202). Safe: the spec's own fault. -/
  | unimplementedOpcode (w : Word)
  /-- Raised by the command `Draw`, with its operands (60_exceptions R204). Safe: the spec's own fault. -/
  | displayBoundsExceeded (x y w h : Byte)
  /-- Raised by nothing inside the block: the host's loader could not read its bytes (60_exceptions R205). Safe:
  it stands here so that the list of names is the spec's (log entry 10). -/
  | programLoadFailure
  /-- Raised by `Step` at fetch, with the `pc` whose fetch failed (60_exceptions R206). Safe: the spec's own
  fault. -/
  | fetchOutOfRange (a : Word)
  /-- Raised by `Step` executing `CALL` on a full stack, only when `STACK_DEPTH` is finite (60_exceptions R206).
  Safe: the spec's own fault; unreachable with the unbounded default (log entry 10). -/
  | stackOverflow
  /-- Raised by `Load` on an image longer than `MEM_SIZE - BASE`, with its length (60_exceptions R205). Safe: the
  spec's own fault. -/
  | imageTooLarge (len : Nat)
  deriving DecidableEq, Repr

/-- Why an operation has no meaning. -/
inductive Refusal where
  /-- Raised by an arm of `exec` for an instruction with no meaning yet; no arm does so. Safe: nothing is
  claimed of a step that is refused. -/
  | notModelled (mnemonic : String)
  /-- Raised by every operation but `PowerOn` before the first `PowerOn` (70_reset_and_hazards R231;
  93_implementation_defined U15). Safe: the state before `PowerOn` is not defined. -/
  | notPoweredOn
  deriving DecidableEq, Repr

/-- The three outcomes of executing an instruction, of a `Step` and of a host operation that gives no output. -/
abbrev Outcome := Host.Outcome State Fault Refusal

end Sys2Proof.Machine
end

