-- ==== Sys2Proof/Machine/Ops.lean ====
section
/-! DEFINITION. The named operations over memory, the program counter and the call stack; the delivery of a
fault; the instruction fetch. There is no return from a fault (60_exceptions R210). -/

namespace Sys2Proof.Machine

/-! Faults. -/

/-- Delivering a fault: it is the operation's outcome, and nothing else happens, so the state stays as it was
(60_exceptions R208, R209; log entry 4). -/
def raise (f : Fault) : Outcome := .fault f

/-- Run `k` on the next state of `o`; a fault or a refusal of `o` prevents it (40_fetch_decode_dispatch R101). -/
def andThen (o : Outcome) (k : State → Outcome) : Outcome :=
  match o with
  | .next s => k s
  | .fault f => .fault f
  | .refused r => .refused r

/-! Memory. -/

/-- The canonical form of a memory whose cells stand at `lo` or above. -/
def Memory.wfFrom : Nat → Memory → Bool
  | _, [] => true
  | lo, (a, b) :: m =>
    decide (lo ≤ a) && decide (a < Config.memSize) && decide (b ≠ Config.memInit a) && Memory.wfFrom (a + 1) m

/-- The canonical form: addresses strictly rising and below `MEM_SIZE`, no cell equal to `MEM_INIT`. -/
def Memory.wf (m : Memory) : Bool := Memory.wfFrom 0 m

/-- The byte at an address; an unlisted address reads as `MEM_INIT` (10_state R31, R35; log entry 2). -/
def Memory.read : Memory → Nat → Byte
  | [], a => Config.memInit a
  | (a', b) :: m, a => if a = a' then b else Memory.read m a

/-- Put a cell before a memory, unless it holds what an unlisted address reads as. -/
def Memory.consCell (a : Nat) (b : Byte) (m : Memory) : Memory :=
  if b = Config.memInit a then m else (a, b) :: m

/-- Write one byte, keeping the canonical form. -/
def Memory.write : Memory → Nat → Byte → Memory
  | [], a, b => Memory.consCell a b []
  | (a', b') :: m, a, b =>
    if a < a' then Memory.consCell a b ((a', b') :: m)
    else if a = a' then Memory.consCell a b m
    else (a', b') :: Memory.write m a b

/-- `MemWrite`: write a list of bytes at rising addresses (00_scope R10; used by `Load` alone, 20_memory R57). -/
def Memory.writeBytes : Memory → Nat → List Byte → Memory
  | m, _, [] => m
  | m, a, b :: bs => Memory.writeBytes (Memory.write m a b) (a + 1) bs

/-! The fetch. -/

/-- What a fetch yields. -/
inductive Fetched where
  /-- The instruction word. -/
  | word (w : Word)
  /-- A byte of it would lie at or above `MEM_SIZE`. -/
  | outOfRange (a : Word)
  deriving DecidableEq, Repr

/-- The fetch at `pc` is inside memory; the sum is exact (20_memory R55). -/
def fetchable (pc : Word) : Bool := decide (pc.toNat + 1 < Config.memSize)

/-- `Fetch(pc)`: two bytes, the first is the high one, at any `pc`, even or odd (20_memory R53, R54, R55). -/
def fetch (s : State) : Fetched :=
  if fetchable s.pc then
    .word (wordOfBytes (s.mem.read s.pc.toNat) (s.mem.read (s.pc.toNat + 1)))
  else .outOfRange s.pc

/-- Store an instruction word where a fetch at `a` reads it (20_memory R53). -/
def storeWord (m : Memory) (a : Nat) (w : Word) : Memory :=
  Memory.writeBytes m a [highByte w, lowByte w]

/-- The state whose next fetch reads `w`: stored at `pc`, or, when no fetch at `pc` is possible, at `BASE` with
`pc` set to it (log entry 3). -/
def placeWord (s : State) (w : Word) : State :=
  if fetchable s.pc then { s with mem := storeWord s.mem s.pc.toNat w }
  else { s with pc := BitVec.ofNat 16 Config.base, mem := storeWord s.mem Config.base w }

/-! The program counter. -/

/-- The advance of an instruction that does not set `pc` itself (10_state R25). -/
def advance (s : State) : State := { s with pc := s.pc + Config.slot }

/-- The advance of a skip whose condition held: one extra slot, which is not fetched (10_state R25). -/
def skip (s : State) : State := { s with pc := s.pc + Config.slot + Config.slot }

/-- Set `pc`; the target is not checked (42_control_flow R147). -/
def jumpTo (t : Word) (s : State) : State := { s with pc := t }

/-! The call stack. -/

/-- The stack holds `STACK_DEPTH` entries; never, when the depth is unbounded (10_state R30). -/
def stackFull (s : State) : Bool :=
  match Config.stackDepth with
  | none => false
  | some d => decide (d ≤ s.stack.length)

/-- `push(v)`: append `v` as the new top (10_state R30, 60_exceptions R206). -/
def push (v : Word) (s : State) : Outcome :=
  if stackFull s then raise .stackOverflow else .next { s with stack := s.stack ++ [v] }

/-- `pop()`: remove the top and hand it to `k`; `StackUnderflow` on an empty stack (10_state R30,
60_exceptions R201). -/
def pop (s : State) (k : Word → State → Outcome) : Outcome :=
  match s.stack.getLast? with
  | none => raise .stackUnderflow
  | some v => k v { s with stack := s.stack.dropLast }

end Sys2Proof.Machine
end

