-- ==== Sys2Proof/Machine/Operands.lean ====
section
/-! DEFINITION. The operand forms: register indexes with their range check, and the 12-bit address. An 8-bit
immediate is used at its own width (30_encoding R72). -/

namespace Sys2Proof.Machine

/-- Test the register indexes an instruction names, in order, before any of its effects: the first that is not
below `NREGS` faults (10_state R22, 60_exceptions R203, R207). -/
def guardRegs (rs : List RegIdx) (o : Outcome) : Outcome :=
  match rs.find? (fun r => decide (Config.nregs ≤ r)) with
  | some r => raise (.registerIndexOutOfRange r)
  | none => o

/-- `V[i]`, read after `guardRegs` has tested `i` (00_scope R10; log entry 12). -/
def readReg (s : State) (i : RegIdx) : Byte := s.v[i]?.getD 0

/-- `V[i] <- b`, after `guardRegs` has tested `i` (00_scope R10; log entry 12). -/
def setReg (i : RegIdx) (b : Byte) (s : State) : State := { s with v := s.v.setIfInBounds i b }

/-- `zext_16(nnn)`: the address operand as a value of `pc` (30_encoding R72). -/
def target (nnn : Addr) : Word := nnn.setWidth 16

end Sys2Proof.Machine
end

