-- ==== Sys2Proof/Machine/Alu.lean ====
section
/-! DEFINITION. The register-register arithmetic/logic family (44_alu R170 to R176): the destination is `V[x]`, the
source `V[y]`, and both are read before the destination is written. -/

namespace Sys2Proof.Machine

/-- The common form of the four flag-neutral operations (44_alu R170): `V[x] <- f(V[x], V[y])`. -/
def aluNeutral (f : Byte → Byte → Byte) (x y : RegIdx) (s : State) : Outcome :=
  guardRegs [x, y] (.next (advance (setReg x (f (readReg s x) (readReg s y)) s)))

/-- The common form of the two flag-writing operations (44_alu R170): `V[x]` takes the result and `CF`, on every
execution, the flag (10_state R28). -/
def aluFlagged (f : Byte → Byte → Byte) (flag : Byte → Byte → Bool) (x y : RegIdx) (s : State) : Outcome :=
  guardRegs [x, y]
    (.next (advance { setReg x (f (readReg s x) (readReg s y)) s with cf := flag (readReg s x) (readReg s y) }))

/-- `LD Vx, Vy` (44_alu R171). -/
def execLdReg (x y : RegIdx) (s : State) : Outcome := aluNeutral (fun _ b => b) x y s

/-- `OR Vx, Vy` (44_alu R172). -/
def execOr (x y : RegIdx) (s : State) : Outcome := aluNeutral (fun a b => a ||| b) x y s

/-- `AND Vx, Vy` (44_alu R173). -/
def execAnd (x y : RegIdx) (s : State) : Outcome := aluNeutral (fun a b => a &&& b) x y s

/-- `XOR Vx, Vy` (44_alu R174). -/
def execXor (x y : RegIdx) (s : State) : Outcome := aluNeutral (fun a b => a ^^^ b) x y s

/-- `ADD Vx, Vy`: `CF` is the carry out (44_alu R175). -/
def execAddReg (x y : RegIdx) (s : State) : Outcome := aluFlagged addResult addCarry x y s

/-- `SUB Vx, Vy`: `CF` is 1 when a borrow happens (44_alu R176, decision D10). -/
def execSub (x y : RegIdx) (s : State) : Outcome := aluFlagged subResult subBorrow x y s

end Sys2Proof.Machine
end

