-- ==== Sys2Proof/Machine/ControlFlow.lean ====
section
/-! DEFINITION. The control-transfer family (42_control_flow R140 to R145). None of it writes `V`, `CF`, `mem` or
the display. -/

namespace Sys2Proof.Machine

/-- `RET`: `pc` is exactly the popped value (42_control_flow R140). -/
def execRet (s : State) : Outcome := pop s fun v t => .next (jumpTo v t)

/-- `JP nnn` (42_control_flow R141). -/
def execJp (nnn : Addr) (s : State) : Outcome := .next (jumpTo (target nnn) s)

/-- `CALL nnn`: push the address of the next instruction, then jump (42_control_flow R142). -/
def execCall (nnn : Addr) (s : State) : Outcome :=
  andThen (push (s.pc + Config.callPushOffset) s) fun t => .next (jumpTo (target nnn) t)

/-- The common end of the three skips (10_state R25). -/
def skipIf (c : Bool) (s : State) : Outcome := .next (if c then skip s else advance s)

/-- `SE Vx, nn` (42_control_flow R143). -/
def execSeImm (x : RegIdx) (nn : Byte) (s : State) : Outcome :=
  guardRegs [x] (skipIf (readReg s x == nn) s)

/-- `SNE Vx, nn` (42_control_flow R144). -/
def execSneImm (x : RegIdx) (nn : Byte) (s : State) : Outcome :=
  guardRegs [x] (skipIf (readReg s x != nn) s)

/-- `SE Vx, Vy` (42_control_flow R145). -/
def execSeReg (x y : RegIdx) (s : State) : Outcome :=
  guardRegs [x, y] (skipIf (readReg s x == readReg s y) s)

end Sys2Proof.Machine
end

