-- ==== Sys2Proof/Machine/Display.lean ====
section
/-! DEFINITION. The display plane: the read and write of a pixel, the instruction `CLS` (41_display R120), and the
sprite XOR-renderer with its collision detector, which the command `Draw` runs (41_display R121 to R125). -/

namespace Sys2Proof.Machine

/-- `px(x, y)` (00_scope R10); a place outside the plane holds no pixel and reads as off. -/
def Plane.px (p : Plane) (x y : Nat) : Bool := (p[y]?.bind (fun row => row[x]?)).getD false

/-- `px(x, y) <- b` (00_scope R10); outside the plane nothing is written. -/
def Plane.setPx (p : Plane) (x y : Nat) (b : Bool) : Plane :=
  p.setIfInBounds y ((p[y]?.getD PixelRow.off).setIfInBounds x b)

/-- `CLS`: every pixel off, then the advance; `CF` stays (41_display R120). -/
def execCls (s : State) : Outcome := .next (advance { s with display := Plane.off })

/-- One pixel of the scan: the collision bit is tested before the pixel is inverted (41_display R122). -/
def drawPixel (x y : Nat) (acc : Plane × Bool) : Plane × Bool :=
  (acc.1.setPx x y (!acc.1.px x y), acc.2 || acc.1.px x y)

/-- The scan of one row of the rectangle, `w` pixels from column `x` on (41_display R122). -/
def drawRow (x y : Nat) : Nat → Plane × Bool → Plane × Bool
  | 0, acc => acc
  | w + 1, acc => drawRow (x + 1) y w (drawPixel x y acc)

/-- The scan of the rectangle, `h` rows from row `y` on (41_display R122). -/
def drawRows (x y w : Nat) : Nat → Plane × Bool → Plane × Bool
  | 0, acc => acc
  | h + 1, acc => drawRows x (y + 1) w h (drawRow x y w acc)

/-- The rectangle lies inside the plane; the sums are exact (41_display R123). -/
def rectFits (x y w h : Byte) : Bool :=
  decide (x.toNat + w.toNat ≤ Config.dispW) && decide (y.toNat + h.toNat ≤ Config.dispH)

/-- `Draw(x, y, w, h)`: the next state and the collision bit, or the fault with nothing changed
(41_display R122, R123). -/
def draw (x y w h : Byte) (s : State) : Host.Outcome (State × Bool) Fault Refusal :=
  if rectFits x y w h then
    let r := drawRows x.toNat y.toNat w.toNat h.toNat (s.display, false)
    .next ({ s with display := r.1 }, r.2)
  else .fault (.displayBoundsExceeded x y w h)

end Sys2Proof.Machine
end

