-- ==== Sys2Proof/Machine/Immediate.lean ====
section
/-! DEFINITION. The register-immediate family (43_immediate R160, R161). Neither instruction touches `CF`, the stack,
`mem` or the display, and the add shares no flag-writing path with `ADD Vx, Vy` (43_immediate R162). -/

namespace Sys2Proof.Machine

/-- `LD Vx, nn` (43_immediate R160). -/
def execLdImm (x : RegIdx) (nn : Byte) (s : State) : Outcome :=
  guardRegs [x] (.next (advance (setReg x nn s)))

/-- `ADD Vx, nn`: the sum modulo 256 (43_immediate R161). -/
def execAddImm (x : RegIdx) (nn : Byte) (s : State) : Outcome :=
  guardRegs [x] (.next (advance (setReg x (addResult (readReg s x) nn) s)))

end Sys2Proof.Machine
end

