-- ==== Sys2Proof/Machine/Step.lean ====
section
/-! DEFINITION. `Step`: fetch, decode, operand check, execute, advance (40_fetch_decode_dispatch R100, R101). The
operand check and the advance stand in each instruction's meaning. -/

namespace Sys2Proof.Machine

/-- `Step` (40_fetch_decode_dispatch R100): a fault at one action prevents every later one. -/
def step (s : State) : Host.Outcome State Fault Refusal :=
  match fetch s with
  | .outOfRange a => raise (.fetchOutOfRange a)
  | .word w =>
    match decode w with
    | .unimplementedOpcode u => raise (.unimplementedOpcode u)
    | .instr i => exec i s

/-- `s` with the table's instruction stored where `step` fetches its next one (log entry 3). -/
def State.withFetchWord (s : State) (nbits w : Nat) : State := placeWord s (tableWord nbits w)

end Sys2Proof.Machine
end

