-- ==== Sys2Proof/Machine/HostOps.lean ====
section
/-! DEFINITION. The operations the host starts beside `Step` and `Draw`: `PowerOn`, `Load`, `Reset`, `ReadDisplay`,
`ReadState` (00_scope R6). -/

namespace Sys2Proof.Machine

/-- `PowerOn` constructs the state, whatever was before (70_reset_and_hazards R230; log entry 7). -/
def powerOn : State := State.reset

/-- The longest image `Load` accepts, `MEM_SIZE - BASE` (70_reset_and_hazards R232). -/
def maxImage : Nat := Config.memSize - Config.base

/-- `Load(bytes)`: the image at `BASE`, `pc` at `BASE`, nothing else; a longer image is refused with
`ImageTooLarge` and nothing changes (70_reset_and_hazards R232, R233). -/
def load (bytes : List Byte) (s : State) : Outcome :=
  if bytes.length ≤ maxImage then
    .next { s with mem := s.mem.writeBytes Config.base bytes, pc := BitVec.ofNat 16 Config.base }
  else raise (.imageTooLarge bytes.length)

/-- `Reset`: zeroes `V`, `pc` and `CF` only (70_reset_and_hazards R234). -/
def hostReset (s : State) : State :=
  { s with v := Vector.replicate Config.nregs 0, pc := 0, cf := false }

/-- What `ReadState` returns (10_state R36). -/
structure StateView where
  v : Vector Byte Config.nregs
  pc : Word
  cf : Bool
  stack : List Word
  deriving DecidableEq, Repr

/-- `ReadState` (10_state R36). -/
def readState (s : State) : StateView := { v := s.v, pc := s.pc, cf := s.cf, stack := s.stack }

/-- `ReadDisplay`: the whole grid (41_display R126; log entry 8). -/
def readDisplay (s : State) : Plane := s.display

end Sys2Proof.Machine
end

