-- ==== Sys2Proof/Machine/Block.lean ====
section
/-! DEFINITION. The block as its host sees it: the seven operations (00_scope R6), one at a time, each to
completion (20_memory R58). `step` of Step.lean is the operation `Step`; the other six stand beside it here
(log entry 9). -/

namespace Sys2Proof.Machine

/-- An operation of the block's interface with its inputs (00_scope R6). -/
inductive HostOp where
  | powerOn
  | load (bytes : List Byte)
  | reset
  | step
  | draw (x y w h : Byte)
  | readDisplay
  | readState
  deriving DecidableEq, Repr

/-- What an operation returns to the host when it succeeds. -/
inductive Output where
  /-- Success with no value. -/
  | done
  /-- The collision bit of `Draw` (41_display R122). -/
  | collision (b : Bool)
  /-- The pixels of `ReadDisplay` (41_display R126). -/
  | pixels (p : Plane)
  /-- The registers of `ReadState` (10_state R36). -/
  | registers (r : StateView)
  deriving DecidableEq, Repr

/-- The block: `none` before the first `PowerOn`, when no state is defined (70_reset_and_hazards R231). -/
abbrev Block := Option State

/-- The outcome of one operation: the next state and what the host is given. -/
abbrev OpOutcome := Host.Outcome (State × Output) Fault Refusal

/-- An outcome that gives the host no value. -/
def quiet (o : Outcome) : OpOutcome :=
  match o with
  | .next s => .next (s, .done)
  | .fault f => .fault f
  | .refused r => .refused r

/-- `Draw`'s outcome, with its collision bit as the output. -/
def withCollision (o : Host.Outcome (State × Bool) Fault Refusal) : OpOutcome :=
  match o with
  | .next r => .next (r.1, .collision r.2)
  | .fault f => .fault f
  | .refused r => .refused r

/-- An operation on a block that is powered on (00_scope R6). -/
def operateOn (op : HostOp) (s : State) : OpOutcome :=
  match op with
  | .powerOn => .next (powerOn, .done)
  | .load bytes => quiet (load bytes s)
  | .reset => .next (hostReset s, .done)
  | .step => quiet (step s)
  | .draw x y w h => withCollision (draw x y w h s)
  | .readDisplay => .next (s, .pixels (readDisplay s))
  | .readState => .next (s, .registers (readState s))

/-- An operation on a block: before `PowerOn` only `PowerOn` has a meaning (70_reset_and_hazards R231). -/
def operate (op : HostOp) (b : Block) : OpOutcome :=
  match b with
  | some s => operateOn op s
  | none =>
    match op with
    | .powerOn => .next (powerOn, .done)
    | .load _ | .reset | .step | .draw _ _ _ _ | .readDisplay | .readState => .refused .notPoweredOn

/-- The block after an operation: an operation that faults or is refused leaves it as it was
(60_exceptions R209). -/
def Block.after (b : Block) (op : HostOp) : Block :=
  match operate op b with
  | .next r => some r.1
  | .fault _ => b
  | .refused _ => b

/-- The block after a sequence of operations: a run is whatever the host issues, and goes on after a fault
(60_exceptions R210; 40_fetch_decode_dispatch R107). -/
def Block.run (b : Block) : List HostOp → Block
  | [] => b
  | op :: ops => Block.run (b.after op) ops

end Sys2Proof.Machine
end

