-- ==== Sys2Proof/Safety.lean ====
section
/-! DEFINITION. The terms claims are stated in: what an instruction reads and writes (10_state R23, R25, R28), the
rectangle of a `Draw`, and the invariants of the block (10_state R26, 20_memory R51). -/

namespace Sys2Proof

/-- The registers an instruction reads (10_state R23, column "reads"). -/
def Instr.reads : Instr → List RegIdx
  | .cls | .ret | .jp _ | .call _ | .ldImm _ _ => []
  | .seImm x _ | .sneImm x _ | .addImm x _ => [x]
  | .ldReg _ y => [y]
  | .seReg x y | .or x y | .and x y | .xor x y | .addReg x y | .sub x y => [x, y]

/-- The register an instruction writes, if any (10_state R23, column "writes"). -/
def Instr.dest : Instr → Option RegIdx
  | .cls | .ret | .jp _ | .call _ | .seImm _ _ | .sneImm _ _ | .seReg _ _ => none
  | .ldImm x _ | .addImm x _ | .ldReg x _ | .or x _ | .and x _ | .xor x _ | .addReg x _ | .sub x _ => some x

/-- The two writers of the carry flag (10_state R28). -/
def Instr.writesCarry : Instr → Bool
  | .addReg _ _ | .sub _ _ => true
  | .cls | .ret | .jp _ | .call _ | .seImm _ _ | .sneImm _ _ | .seReg _ _ | .ldImm _ _ | .addImm _ _
  | .ldReg _ _ | .or _ _ | .and _ _ | .xor _ _ => false

/-- The two instructions that use the call stack (10_state R30). -/
def Instr.usesStack : Instr → Bool
  | .ret | .call _ => true
  | .cls | .jp _ | .seImm _ _ | .sneImm _ _ | .seReg _ _ | .ldImm _ _ | .addImm _ _ | .ldReg _ _
  | .or _ _ | .and _ _ | .xor _ _ | .addReg _ _ | .sub _ _ => false

namespace Machine

/-- The pixel `(i, j)` lies in the rectangle of `Draw(x, y, w, h)` (41_display R122). -/
def inRect (x y w h : Byte) (i j : Nat) : Bool :=
  decide (x.toNat ≤ i) && decide (i < x.toNat + w.toNat) && decide (y.toNat ≤ j) && decide (j < y.toNat + h.toNat)

/-- The table of 10_state R25: `pc` after an instruction that completes, in the arithmetic of its rules. -/
def nextPc (i : Instr) (s : State) : Word :=
  let plus (k : Nat) : Word := BitVec.ofNat 16 ((s.pc.toNat + k) % 2 ^ 16)
  match i with
  | .cls | .ldImm _ _ | .addImm _ _ | .ldReg _ _ | .or _ _ | .and _ _ | .xor _ _ | .addReg _ _ | .sub _ _ => plus 2
  | .seImm x nn => if s.v[x]? = some nn then plus 4 else plus 2
  | .sneImm x nn => if s.v[x]? = some nn then plus 2 else plus 4
  | .seReg x y => if s.v[x]? = s.v[y]? then plus 4 else plus 2
  | .jp nnn | .call nnn => BitVec.ofNat 16 nnn.toNat
  | .ret => s.stack.getLast?.getD s.pc

/-- Apply a change of state to the next state of an outcome; a fault or a refusal stays. -/
def mapNext (g : State → State) (o : Outcome) : Outcome :=
  match o with
  | .next t => .next (g t)
  | .fault f => .fault f
  | .refused r => .refused r

/-- The values `pc` takes (10_state R26): at most two slots past the last address that a fetch can start at. -/
def PcInRange (s : State) : Prop := s.pc.toNat ≤ Config.memSize + 2

/-- The values the call stack holds (10_state R26): addresses that follow an instruction in memory. -/
def StackInRange (s : State) : Prop := ∀ v ∈ s.stack, 2 ≤ v.toNat ∧ v.toNat ≤ Config.memSize

/-- The reserved region holds `MEM_INIT` (20_memory R51). -/
def ReservedClear (s : State) : Prop := ∀ a, a < Config.base → s.mem.read a = Config.memInit a

/-- The invariant of the block: memory in canonical form (the model's choice, log entry 2), `pc` and the return
addresses in their range (10_state R26), the reserved region as at power-on (20_memory R51). -/
structure State.Inv (s : State) : Prop where
  mem : s.mem.wf = true
  pc : PcInRange s
  stack : StackInRange s
  reserved : ReservedClear s

/-- The invariant of a block, powered on or not. -/
def Block.Inv (b : Block) : Prop := ∀ s, b = some s → s.Inv

end Machine

end Sys2Proof
end

