-- ==== Sys2Proof/Certificates/Slice0/Obligations.lean ====
section
/-! DEFINITION. The statements for the provers, taken from the numbered rules of spec/. Each docstring names the rule;
where a clause rests on a choice the spec marks as its own decision D<n> (92_eei_decisions.md), it says so. The
model fixes the parameters of 00_scope R5 at their values (log entry 1). -/

open Sys2Proof Sys2Proof.Machine

/-! ## The results of the fifteen instructions

Each gives the word that decodes to the instruction, the whole next state, and where the instruction faults. -/

/-- 41_display R120: `CLS` turns every pixel off and advances `pc`; nothing else changes. -/
def Obligations.ClearScreenResult : Prop :=
  decode 0x00E0#16 = .instr .cls ∧
  ∀ s : State, ∃ p : Plane, (∀ x y, x < 64 → y < 32 → p.px x y = false) ∧
    exec .cls s = .next { s with display := p, pc := s.pc + 2#16 }

/-- 42_control_flow R140: `RET` sets `pc` to exactly the popped value; on an empty stack it faults, and then
nothing changes. -/
def Obligations.ReturnResult : Prop :=
  decode 0x00EE#16 = .instr .ret ∧
  (∀ (s : State) (st : List Word) (v : Word), s.stack = st ++ [v] →
    exec .ret s = .next { s with stack := st, pc := v }) ∧
  (∀ s : State, s.stack = [] → exec .ret s = .fault .stackUnderflow) ∧
  (∀ s : State, step s = .fault .stackUnderflow → Block.after (some s) .step = some s)

/-- 42_control_flow R141: `JP nnn` sets `pc` to the zero-extended address; it never faults. -/
def Obligations.JumpResult : Prop :=
  (∀ w : Word, w.extractLsb' 12 4 = 0x1#4 → decode w = .instr (.jp (w.extractLsb' 0 12))) ∧
  ∀ (nnn : Addr) (s : State), exec (.jp nnn) s = .next { s with pc := nnn.setWidth 16 }

/-- 42_control_flow R142 with decision D6 (the pushed value is `pc + 2`) and D15 (unbounded stack): `CALL nnn`. -/
def Obligations.CallResult : Prop :=
  (∀ w : Word, w.extractLsb' 12 4 = 0x2#4 → decode w = .instr (.call (w.extractLsb' 0 12))) ∧
  ∀ (nnn : Addr) (s : State),
    exec (.call nnn) s = .next { s with stack := s.stack ++ [s.pc + 2#16], pc := nnn.setWidth 16 }

/-- 42_control_flow R143: `SE Vx, nn` compares the register with the immediate. -/
def Obligations.SkipEqualImmediateResult : Prop :=
  (∀ w : Word, w.extractLsb' 12 4 = 0x3#4 →
    decode w = .instr (.seImm (w.extractLsb' 8 4).toNat (w.extractLsb' 0 8))) ∧
  (∀ (x : RegIdx) (hx : x < Config.nregs) (nn : Byte) (s : State),
    exec (.seImm x nn) s = .next { s with pc := if s.v[x] = nn then s.pc + 4#16 else s.pc + 2#16 }) ∧
  (∀ (x : RegIdx) (nn : Byte) (s : State), Config.nregs ≤ x →
    exec (.seImm x nn) s = .fault (.registerIndexOutOfRange x))

/-- 42_control_flow R144: `SNE Vx, nn`, the negation of the above. -/
def Obligations.SkipNotEqualImmediateResult : Prop :=
  (∀ w : Word, w.extractLsb' 12 4 = 0x4#4 →
    decode w = .instr (.sneImm (w.extractLsb' 8 4).toNat (w.extractLsb' 0 8))) ∧
  (∀ (x : RegIdx) (hx : x < Config.nregs) (nn : Byte) (s : State),
    exec (.sneImm x nn) s = .next { s with pc := if s.v[x] ≠ nn then s.pc + 4#16 else s.pc + 2#16 }) ∧
  (∀ (x : RegIdx) (nn : Byte) (s : State), Config.nregs ≤ x →
    exec (.sneImm x nn) s = .fault (.registerIndexOutOfRange x))

/-- 42_control_flow R145, whose slot the spec marks as derived from R143: `SE Vx, Vy`. -/
def Obligations.SkipEqualRegisterResult : Prop :=
  (∀ w : Word, w.extractLsb' 12 4 = 0x5#4 → w.extractLsb' 0 4 = 0x0#4 →
    decode w = .instr (.seReg (w.extractLsb' 8 4).toNat (w.extractLsb' 4 4).toNat)) ∧
  (∀ (x y : RegIdx) (hx : x < Config.nregs) (hy : y < Config.nregs) (s : State),
    exec (.seReg x y) s = .next { s with pc := if s.v[x] = s.v[y] then s.pc + 4#16 else s.pc + 2#16 }) ∧
  (∀ (x y : RegIdx) (s : State), Config.nregs ≤ x →
    exec (.seReg x y) s = .fault (.registerIndexOutOfRange x)) ∧
  (∀ (x y : RegIdx) (s : State), x < Config.nregs → Config.nregs ≤ y →
    exec (.seReg x y) s = .fault (.registerIndexOutOfRange y))

/-- 43_immediate R160: `LD Vx, nn`. -/
def Obligations.LoadImmediateResult : Prop :=
  (∀ w : Word, w.extractLsb' 12 4 = 0x6#4 →
    decode w = .instr (.ldImm (w.extractLsb' 8 4).toNat (w.extractLsb' 0 8))) ∧
  (∀ (x : RegIdx) (hx : x < Config.nregs) (nn : Byte) (s : State),
    exec (.ldImm x nn) s = .next { s with v := s.v.set x nn, pc := s.pc + 2#16 }) ∧
  (∀ (x : RegIdx) (nn : Byte) (s : State), Config.nregs ≤ x →
    exec (.ldImm x nn) s = .fault (.registerIndexOutOfRange x))

/-- 43_immediate R161 with decision D11 (the sum wraps modulo 256): `ADD Vx, nn`, `CF` untouched. -/
def Obligations.AddImmediateResult : Prop :=
  (∀ w : Word, w.extractLsb' 12 4 = 0x7#4 →
    decode w = .instr (.addImm (w.extractLsb' 8 4).toNat (w.extractLsb' 0 8))) ∧
  (∀ (x : RegIdx) (hx : x < Config.nregs) (nn : Byte) (s : State),
    exec (.addImm x nn) s = .next { s with
      v := s.v.set x (BitVec.ofNat 8 ((s.v[x].toNat + nn.toNat) % 256)), pc := s.pc + 2#16 }) ∧
  (∀ (x : RegIdx) (nn : Byte) (s : State), Config.nregs ≤ x →
    exec (.addImm x nn) s = .fault (.registerIndexOutOfRange x))

/-- 44_alu R171: `LD Vx, Vy`; `CF` untouched. -/
def Obligations.CopyRegisterResult : Prop :=
  (∀ w : Word, w.extractLsb' 12 4 = 0x8#4 → w.extractLsb' 0 4 = 0x0#4 →
    decode w = .instr (.ldReg (w.extractLsb' 8 4).toNat (w.extractLsb' 4 4).toNat)) ∧
  (∀ (x y : RegIdx) (hx : x < Config.nregs) (hy : y < Config.nregs) (s : State),
    exec (.ldReg x y) s = .next { s with v := s.v.set x s.v[y], pc := s.pc + 2#16 }) ∧
  (∀ (x y : RegIdx) (s : State), Config.nregs ≤ x →
    exec (.ldReg x y) s = .fault (.registerIndexOutOfRange x)) ∧
  (∀ (x y : RegIdx) (s : State), x < Config.nregs → Config.nregs ≤ y →
    exec (.ldReg x y) s = .fault (.registerIndexOutOfRange y))

/-- 44_alu R172: `OR Vx, Vy`, bit by bit; `CF` untouched. -/
def Obligations.OrResult : Prop :=
  (∀ w : Word, w.extractLsb' 12 4 = 0x8#4 → w.extractLsb' 0 4 = 0x1#4 →
    decode w = .instr (.or (w.extractLsb' 8 4).toNat (w.extractLsb' 4 4).toNat)) ∧
  (∀ (x y : RegIdx) (hx : x < Config.nregs) (hy : y < Config.nregs) (s : State), ∃ r : Byte,
    (∀ k, k < 8 → r.getLsbD k = (s.v[x].getLsbD k || s.v[y].getLsbD k)) ∧
    exec (.or x y) s = .next { s with v := s.v.set x r, pc := s.pc + 2#16 }) ∧
  (∀ (x y : RegIdx) (s : State), Config.nregs ≤ x →
    exec (.or x y) s = .fault (.registerIndexOutOfRange x)) ∧
  (∀ (x y : RegIdx) (s : State), x < Config.nregs → Config.nregs ≤ y →
    exec (.or x y) s = .fault (.registerIndexOutOfRange y))

/-- 44_alu R173: `AND Vx, Vy`, bit by bit; `CF` untouched. -/
def Obligations.AndResult : Prop :=
  (∀ w : Word, w.extractLsb' 12 4 = 0x8#4 → w.extractLsb' 0 4 = 0x2#4 →
    decode w = .instr (.and (w.extractLsb' 8 4).toNat (w.extractLsb' 4 4).toNat)) ∧
  (∀ (x y : RegIdx) (hx : x < Config.nregs) (hy : y < Config.nregs) (s : State), ∃ r : Byte,
    (∀ k, k < 8 → r.getLsbD k = (s.v[x].getLsbD k && s.v[y].getLsbD k)) ∧
    exec (.and x y) s = .next { s with v := s.v.set x r, pc := s.pc + 2#16 }) ∧
  (∀ (x y : RegIdx) (s : State), Config.nregs ≤ x →
    exec (.and x y) s = .fault (.registerIndexOutOfRange x)) ∧
  (∀ (x y : RegIdx) (s : State), x < Config.nregs → Config.nregs ≤ y →
    exec (.and x y) s = .fault (.registerIndexOutOfRange y))

/-- 44_alu R174: `XOR Vx, Vy`, bit by bit; `CF` untouched. -/
def Obligations.XorResult : Prop :=
  (∀ w : Word, w.extractLsb' 12 4 = 0x8#4 → w.extractLsb' 0 4 = 0x3#4 →
    decode w = .instr (.xor (w.extractLsb' 8 4).toNat (w.extractLsb' 4 4).toNat)) ∧
  (∀ (x y : RegIdx) (hx : x < Config.nregs) (hy : y < Config.nregs) (s : State), ∃ r : Byte,
    (∀ k, k < 8 → r.getLsbD k = (s.v[x].getLsbD k != s.v[y].getLsbD k)) ∧
    exec (.xor x y) s = .next { s with v := s.v.set x r, pc := s.pc + 2#16 }) ∧
  (∀ (x y : RegIdx) (s : State), Config.nregs ≤ x →
    exec (.xor x y) s = .fault (.registerIndexOutOfRange x)) ∧
  (∀ (x y : RegIdx) (s : State), x < Config.nregs → Config.nregs ≤ y →
    exec (.xor x y) s = .fault (.registerIndexOutOfRange y))

/-- 44_alu R175 with decision D9 (`CF` is assigned on every execution): `ADD Vx, Vy`; the old `CF` is no input. -/
def Obligations.AddRegisterResult : Prop :=
  (∀ w : Word, w.extractLsb' 12 4 = 0x8#4 → w.extractLsb' 0 4 = 0x4#4 →
    decode w = .instr (.addReg (w.extractLsb' 8 4).toNat (w.extractLsb' 4 4).toNat)) ∧
  (∀ (x y : RegIdx) (hx : x < Config.nregs) (hy : y < Config.nregs) (s : State),
    exec (.addReg x y) s = .next { s with
      v := s.v.set x (BitVec.ofNat 8 ((s.v[x].toNat + s.v[y].toNat) % 256)),
      cf := decide (s.v[x].toNat + s.v[y].toNat > 255), pc := s.pc + 2#16 }) ∧
  (∀ (x y : RegIdx) (s : State), Config.nregs ≤ x →
    exec (.addReg x y) s = .fault (.registerIndexOutOfRange x)) ∧
  (∀ (x y : RegIdx) (s : State), x < Config.nregs → Config.nregs ≤ y →
    exec (.addReg x y) s = .fault (.registerIndexOutOfRange y))

/-- 44_alu R176 with decisions D9 and D10 (`V[x]` is the minuend, `CF` is 1 on a borrow, the old `CF` is no
input): `SUB Vx, Vy`. -/
def Obligations.SubtractResult : Prop :=
  (∀ w : Word, w.extractLsb' 12 4 = 0x8#4 → w.extractLsb' 0 4 = 0x5#4 →
    decode w = .instr (.sub (w.extractLsb' 8 4).toNat (w.extractLsb' 4 4).toNat)) ∧
  (∀ (x y : RegIdx) (hx : x < Config.nregs) (hy : y < Config.nregs) (s : State),
    exec (.sub x y) s = .next { s with
      v := s.v.set x (BitVec.ofNat 8 ((s.v[x].toNat + 256 - s.v[y].toNat) % 256)),
      cf := decide (s.v[x].toNat < s.v[y].toNat), pc := s.pc + 2#16 }) ∧
  (∀ (x y : RegIdx) (s : State), Config.nregs ≤ x →
    exec (.sub x y) s = .fault (.registerIndexOutOfRange x)) ∧
  (∀ (x y : RegIdx) (s : State), x < Config.nregs → Config.nregs ≤ y →
    exec (.sub x y) s = .fault (.registerIndexOutOfRange y))

/-! ## Rules over all instructions -/

/-- 43_immediate R162: with the same second operand the two adds agree but for `CF`, which `ADD Vx, nn` never
writes and `ADD Vx, Vy` always writes, from the operands alone. -/
def Obligations.TwoAddsDifferOnlyInCarry : Prop :=
  ∀ (x y : RegIdx) (_ : x < Config.nregs) (hy : y < Config.nregs) (s : State), ∃ t : State,
    exec (.addImm x s.v[y]) s = .next t ∧ t.cf = s.cf ∧
    ∃ c : Bool, exec (.addReg x y) s = .next { t with cf := c } ∧
      ∀ b : Bool, exec (.addReg x y) { s with cf := b } = .next { t with cf := c }

/-- 10_state R22 and 60_exceptions R203 with decision D19 (`x` before `y`): the first index an instruction names
that is not below `NREGS` is the fault it raises, and a decoded instruction never names one. -/
def Obligations.RegisterIndexFaultsInOrder : Prop :=
  (∀ (i : Instr) (s : State) (r : RegIdx), i.regs.find? (fun r => decide (Config.nregs ≤ r)) = some r →
    exec i s = .fault (.registerIndexOutOfRange r)) ∧
  (∀ (w : Word) (i : Instr), decode w = .instr i → ∀ r ∈ i.regs, r < Config.nregs)

/-- 40_fetch_decode_dispatch R103: with its registers in range every instruction completes, but for `RET` on an
empty call stack. -/
def Obligations.ExecCompletes : Prop :=
  ∀ (i : Instr) (s : State), (∀ r ∈ i.regs, r < Config.nregs) → (i = .ret → s.stack ≠ []) →
    ∃ t, exec i s = .next t

/-- 10_state R23, R28, R30, R32 and 20_memory R57, for all fifteen instructions: what one leaves unchanged when it
completes. Every register but its destination; `CF` but for `ADD Vx, Vy` and `SUB Vx, Vy`; the stack but for
`CALL` and `RET`; the display but for `CLS`; every byte of memory. -/
def Obligations.ExecFrame : Prop :=
  ∀ (i : Instr) (s t : State), exec i s = .next t →
    (∀ r : RegIdx, i.dest ≠ some r → t.v[r]? = s.v[r]?) ∧
    (i.writesCarry = false → t.cf = s.cf) ∧
    (i.usesStack = false → t.stack = s.stack) ∧
    (i ≠ .cls → t.display = s.display) ∧
    (∀ a : Nat, t.mem.read a = s.mem.read a) ∧ t.mem = s.mem

/-- 10_state R23, column "reads": a register that an instruction does not read has no influence on it. If it is
not the destination either, its value passes through; if it is the destination, its old value is lost. -/
def Obligations.OnlyNamedRegistersAreRead : Prop :=
  ∀ (i : Instr) (s : State) (z : RegIdx) (b : Byte), z ∉ i.reads →
    (i.dest ≠ some z → exec i (setReg z b s) = mapNext (setReg z b) (exec i s)) ∧
    (i.dest = some z → exec i (setReg z b s) = exec i s)

/-- 10_state R28 with decision D9: no instruction reads `CF`, and one that does not write it passes it through. -/
def Obligations.CarryFlagNeverRead : Prop :=
  ∀ (i : Instr) (s : State) (b : Bool),
    exec i { s with cf := b } =
      mapNext (fun t => if i.writesCarry then t else { t with cf := b }) (exec i s)

/-- 10_state R31, R32 and 20_memory R57: no instruction reads `mem` as data or any pixel; so a skip does not look
at the word it skips (42_control_flow R143, corner cases). -/
def Obligations.MemoryAndDisplayNeverRead : Prop :=
  ∀ (i : Instr) (s : State) (m : Memory) (p : Plane),
    exec i { s with mem := m, display := p } =
      mapNext (fun t => { t with mem := m, display := if i = .cls then t.display else p }) (exec i s)

/-- 10_state R25 with decision D5 (a slot is two bytes): `pc` after each instruction that completes, and after a
`Step` that faults. -/
def Obligations.PcAdvanceTable : Prop :=
  (∀ (i : Instr) (s t : State), exec i s = .next t → t.pc = nextPc i s) ∧
  (∀ (s : State) (f : Fault), step s = .fault f → Block.after (some s) .step = some s)

/-- 42_control_flow R146 with decision D6: `CALL` pushes one entry; a `RET` that finds the stack as the `CALL`
left it pops it and returns to the instruction after the `CALL`. -/
def Obligations.CallReturnRoundTrip : Prop :=
  ∀ (nnn : Addr) (s : State), ∃ t : State,
    exec (.call nnn) s = .next t ∧ t.pc = nnn.setWidth 16 ∧ t.stack = s.stack ++ [s.pc + 2#16] ∧
    ∀ u : State, u.stack = t.stack → exec .ret u = .next { u with stack := s.stack, pc := s.pc + 2#16 }

/-! ## Fetch, decode, step -/

/-- 40_fetch_decode_dispatch R100: when the two bytes at `pc` decode to an instruction, that instruction is
well-formed and `Step` is its execution, with nothing around it; a fetch outside memory and a word outside the
table are the two faults before that (decisions D4, D13). -/
def Obligations.StepRunsDecodedInstruction : Prop :=
  ∀ s : State,
    (∀ i : Instr, s.pc.toNat + 1 < 4096 →
      decode (s.mem.read s.pc.toNat ++ s.mem.read (s.pc.toNat + 1)) = .instr i →
      i.wf = true ∧ step s = exec i s) ∧
    (∀ w : Word, s.pc.toNat + 1 < 4096 →
      decode (s.mem.read s.pc.toNat ++ s.mem.read (s.pc.toNat + 1)) = .unimplementedOpcode w →
      step s = .fault (.unimplementedOpcode w)) ∧
    (4096 ≤ s.pc.toNat + 1 → step s = .fault (.fetchOutOfRange s.pc))

/-- 20_memory R53, R54, R55 with decisions D4 (big-endian) and D13 (any parity, no wrap): the word fetched. -/
def Obligations.FetchReadsTwoBytes : Prop :=
  ∀ s : State,
    (s.pc.toNat ≤ 4094 → ∃ w : Word, fetch s = .word w ∧
      w.toNat = (s.mem.read s.pc.toNat).toNat * 256 + (s.mem.read (s.pc.toNat + 1)).toNat) ∧
    (4095 ≤ s.pc.toNat → fetch s = .outOfRange s.pc)

/-- 60_exceptions R202: `Step` faults as unimplemented exactly when the fetched word selects no row of the table,
and records that word. -/
def Obligations.UnimplementedWordFaults : Prop :=
  ∀ (s : State) (w : Word),
    step s = .fault (.unimplementedOpcode w) ↔
      fetch s = .word w ∧ ∀ r ∈ opcodeTable, r.selects w = false

/-- 60_exceptions R201, R202, R206, R217 with decisions D13, D15, D19: the complete list of what a `Step` can
return other than a next state, each with its cause. -/
def Obligations.StepFaultCauses : Prop :=
  ∀ s : State, match step s with
    | .next _ => s.pc.toNat + 1 < 4096
    | .fault f =>
      (f = .fetchOutOfRange s.pc ∧ 4096 ≤ s.pc.toNat + 1) ∨
      (∃ w, f = .unimplementedOpcode w ∧ fetch s = .word w ∧ decode w = .unimplementedOpcode w) ∨
      (f = .stackUnderflow ∧ s.stack = [] ∧ fetch s = .word 0x00EE#16)
    | .refused _ => False

/-- 40_fetch_decode_dispatch R107 (derived there): a `Step` on a jump to its own address leaves the whole state
unchanged. -/
def Obligations.SelfJumpChangesNothing : Prop :=
  ∀ s : State, fetch s = .word (encode (.jp (BitVec.ofNat 12 s.pc.toNat))) → step s = .next s

/-- 30_encoding R72, R74 with decisions D1, D2, D3: what every word decodes to, its fields read by the arithmetic
of 00_scope R9. -/
def Obligations.DecodeReadsTheFields : Prop :=
  ∀ w : Word,
    let k := w.toNat
    let f := k / 4096
    let x := k / 256 % 16
    let y := k / 16 % 16
    let n := k % 16
    let nn := BitVec.ofNat 8 k
    let nnn := BitVec.ofNat 12 k
    decode w =
      if k = 0x00E0 then .instr .cls
      else if k = 0x00EE then .instr .ret
      else if f = 0x1 then .instr (.jp nnn)
      else if f = 0x2 then .instr (.call nnn)
      else if f = 0x3 then .instr (.seImm x nn)
      else if f = 0x4 then .instr (.sneImm x nn)
      else if f = 0x5 ∧ n = 0x0 then .instr (.seReg x y)
      else if f = 0x6 then .instr (.ldImm x nn)
      else if f = 0x7 then .instr (.addImm x nn)
      else if f = 0x8 ∧ n = 0x0 then .instr (.ldReg x y)
      else if f = 0x8 ∧ n = 0x1 then .instr (.or x y)
      else if f = 0x8 ∧ n = 0x2 then .instr (.and x y)
      else if f = 0x8 ∧ n = 0x3 then .instr (.xor x y)
      else if f = 0x8 ∧ n = 0x4 then .instr (.addReg x y)
      else if f = 0x8 ∧ n = 0x5 then .instr (.sub x y)
      else .unimplementedOpcode w

/-- 30_encoding R76, R80 with decisions D1, D3: decoding by fields agrees with the table by mask and match; a word
that selects a row decodes to that row's instruction, every other word is unimplemented. -/
def Obligations.DecodeFollowsOpcodeTable : Prop :=
  ∀ w : Word,
    (∀ r ∈ opcodeTable, r.selects w = true → ∃ i, decode w = .instr i ∧ i.mnemonic = r.mnemonic) ∧
    ((∀ r ∈ opcodeTable, r.selects w = false) → decode w = .unimplementedOpcode w)

/-- 30_encoding R76: the fifteen rows are pairwise disjoint. -/
def Obligations.OpcodeRowsDisjoint : Prop :=
  opcodeTable.length = 15 ∧
  ∀ (w : Word), ∀ r ∈ opcodeTable, ∀ q ∈ opcodeTable, r.selects w = true → q.selects w = true → r = q

/-- 30_encoding R72, R76: decoding the word, or the bytes, of a well-formed instruction gives it back, with every
operand. -/
def Obligations.DecodeEncodeRoundTrip : Prop :=
  ∀ i : Instr, i.wf = true →
    decode (encode i) = .instr i ∧ ∀ rest : List Byte, decodeBytes (encodeBytes i ++ rest) = .instr i rest

/-- 30_encoding R72, R76: a word that decodes is the word of its instruction, which is well-formed. -/
def Obligations.EncodeDecodeRoundTrip : Prop :=
  ∀ (w : Word) (i : Instr), decode w = .instr i → i.wf = true ∧ encode i = w

/-- 95_test_vectors section 2.1: one word of each family, and words outside the table. -/
def Obligations.SampleWordsDecode : Prop :=
  decode 0x00E0#16 = .instr .cls ∧ decode 0x2ABC#16 = .instr (.call 0xABC#12) ∧
  decode 0x3A7F#16 = .instr (.seImm 10 0x7F#8) ∧ decode 0x5AB0#16 = .instr (.seReg 10 11) ∧
  decode 0x7E01#16 = .instr (.addImm 14 0x01#8) ∧ decode 0x8AB5#16 = .instr (.sub 10 11) ∧
  decode 0x01E0#16 = .unimplementedOpcode 0x01E0#16 ∧ decode 0x5AB1#16 = .unimplementedOpcode 0x5AB1#16

/-! ## Invariants -/

/-- Every `Step` keeps the invariant. `pc` and the return addresses stay in their range: the spec derives it in
10_state R26 (with decisions D6, D12, D13). The reserved region stays as at power-on: 20_memory R51 (with D12). The
memory stays in canonical form: no rule of the spec but the model's choice of a representation, log entry 2 (DESIGN
CHOICE). -/
def Obligations.StepKeepsInvariant : Prop :=
  ∀ s t : State, s.Inv → step s = .next t → t.Inv

/-- The state after power-on meets the invariant: `pc` 0, the stack empty and the reserved region 0 by 10_state R35
(with decisions D12, D15). That its memory is in canonical form is the model's choice of a representation, log entry 2
(DESIGN CHOICE), and that `State.reset` is the state after `PowerOn` is log entry 6 (DEDUCED). -/
def Obligations.ResetStateMeetsInvariant : Prop := State.reset.Inv

/-- Every operation of the host keeps the invariant, and so does every sequence of them. `pc` and the return
addresses: derived in 10_state R26 (with decisions D6, D12, D13); the reserved region: 20_memory R51 (with D12, D14);
a fault changes nothing: 60_exceptions R209 (decision D16; that the model's fault outcome carries no state is log
entry 4, DEDUCED). These clauses are the model's and no rule of the spec: that memory is in canonical form, log entry 2
(DESIGN CHOICE); operations before the first `PowerOn`, which are refused and leave the block as it was, log entry 6
(DEDUCED); a second `PowerOn`, which constructs the state afresh, log entry 7 (DEDUCED). -/
def Obligations.OperationsKeepInvariant : Prop :=
  (∀ (b : Block) (op : HostOp), Block.Inv b → Block.Inv (Block.after b op)) ∧
  (∀ ops : List HostOp, Block.Inv (Block.run none ops))

/-- Log entry 2 (the model's representation of 10_state R31): two memories in canonical form that read alike at
every address are the same data. -/
def Obligations.CanonicalMemoryIsUnique : Prop :=
  ∀ m m' : Memory, m.wf = true → m'.wf = true → (∀ a, a < 4096 → m.read a = m'.read a) → m = m'

/-! ## Load, Reset, PowerOn -/

/-- 70_reset_and_hazards R232, R233 with decision D14 (bytes above the image stay; a longer image is refused). The
canonical form of memory, before and after, is the model's choice, log entry 2 (DESIGN CHOICE). -/
def Obligations.LoadResult : Prop :=
  (∀ (bytes : List Byte) (s : State), s.mem.wf = true → bytes.length ≤ 3584 → ∃ m : Memory, m.wf = true ∧
    load bytes s = .next { s with mem := m, pc := 512#16 } ∧
    (∀ (k : Nat) (h : k < bytes.length), m.read (512 + k) = bytes[k]) ∧
    (∀ a, a < 512 ∨ 512 + bytes.length ≤ a → m.read a = s.mem.read a)) ∧
  (∀ (bytes : List Byte) (s : State), 3584 < bytes.length →
    load bytes s = .fault (.imageTooLarge bytes.length))

/-- 70_reset_and_hazards R236 and 20_memory R60 (derived there): the `Step` after a `Load` executes the first word of
the image, whatever memory held before (byte order: decision D4). The premise that memory is in canonical form is the
model's choice, log entry 2 (DESIGN CHOICE). -/
def Obligations.LoadThenStepRunsTheImage : Prop :=
  ∀ (b0 b1 : Byte) (rest : List Byte) (s t : State) (i : Instr), s.mem.wf = true →
    load (b0 :: b1 :: rest) s = .next t → decode (b0 ++ b1) = .instr i → step t = exec i t

/-- 70_reset_and_hazards R234 with decision D15 (the stack stays): `Reset` zeroes `V`, `pc` and `CF` only. -/
def Obligations.ResetResult : Prop :=
  ∀ s : State, (∀ (i : RegIdx) (h : i < Config.nregs), (hostReset s).v[i] = 0#8) ∧
    hostReset s = { s with v := (hostReset s).v, pc := 0#16, cf := false } ∧
    operate .reset (some s) = .next (hostReset s, .done)

/-- 70_reset_and_hazards R242 (partly derived there): `Reset` and `Load` are idempotent; `Load` sets `pc` alone
beside memory; the two commute but for `pc` (decisions D14, D15). The premise that memory is in canonical form is the
model's choice, log entry 2 (DESIGN CHOICE). -/
def Obligations.InitialisingLaws : Prop :=
  (∀ s : State, hostReset (hostReset s) = hostReset s) ∧
  (∀ (bytes : List Byte) (s t : State), s.mem.wf = true → load bytes s = .next t →
    load bytes t = .next t ∧ readState t = { readState s with pc := 512#16 } ∧ t.display = s.display ∧
    load bytes (hostReset s) = .next { hostReset t with pc := 512#16 } ∧ (hostReset t).pc = 0#16)

/-- 10_state R35, 70_reset_and_hazards R230 with decisions D12, D15, D17: the state after `PowerOn`. That a
`PowerOn` on a block already powered on gives it too is the model's reading, log entry 7 (DEDUCED). -/
def Obligations.PowerOnState : Prop :=
  (∀ b : Block, operate .powerOn b = .next (State.reset, .done)) ∧
  (∀ (i : RegIdx) (h : i < Config.nregs), State.reset.v[i] = 0#8) ∧ State.reset.pc = 0#16 ∧
  State.reset.cf = false ∧ State.reset.stack = [] ∧ (∀ a, State.reset.mem.read a = 0#8) ∧
  (∀ x y, State.reset.display.px x y = false)

/-- 20_memory R52, 70_reset_and_hazards R236, R237 (derived there): while the reserved region holds 0, a `Step`
from `pc` 0, after `PowerOn` or after `Reset`, faults on the word 0x0000. -/
def Obligations.StepFromAddressZeroFaults : Prop :=
  step State.reset = .fault (.unimplementedOpcode 0x0000#16) ∧
  ∀ s : State, ReservedClear s → step (hostReset s) = .fault (.unimplementedOpcode 0x0000#16)

/-! ## The renderer -/

/-- 41_display R124: inside the bounds, each pixel of the rectangle ends as the complement of its value before, every
other pixel as it was, and the collision bit is 1 exactly when a pixel of the rectangle was on before. -/
def Obligations.DrawPixelsAndCollision : Prop :=
  ∀ (x y w h : Byte) (s : State), x.toNat + w.toNat ≤ 64 → y.toNat + h.toNat ≤ 32 →
    ∃ (t : State) (c : Bool), draw x y w h s = .next (t, c) ∧
      (∀ i j, i < 64 → j < 32 →
        t.display.px i j = if inRect x y w h i j then !s.display.px i j else s.display.px i j) ∧
      (c = true ↔ ∃ i j, inRect x y w h i j = true ∧ s.display.px i j = true)

/-- 41_display R123: the fault, exactly when a sum exceeds the plane, and then nothing changes. -/
def Obligations.DrawBoundsAreStrict : Prop :=
  ∀ (x y w h : Byte) (s : State),
    ((64 < x.toNat + w.toNat ∨ 32 < y.toNat + h.toNat) ↔
      draw x y w h s = .fault (.displayBoundsExceeded x y w h)) ∧
    (64 < x.toNat + w.toNat ∨ 32 < y.toNat + h.toNat →
      Block.after (some s) (.draw x y w h) = some s)

/-- 41_display R122 with decision D18 (the collision bit goes to the host alone): `Draw` changes only the display,
and the host is given its collision bit. -/
def Obligations.DrawChangesOnlyTheDisplay : Prop :=
  ∀ (x y w h : Byte) (s t : State) (c : Bool), draw x y w h s = .next (t, c) →
    t = { s with display := t.display } ∧ operate (.draw x y w h) (some s) = .next (t, .collision c)

/-- 41_display R127 (partly derived there): two identical draws restore the state; on a plane whose rectangle is
all off the first reports no collision, and the second reports one exactly when the rectangle is not empty. -/
def Obligations.DrawTwiceRestores : Prop :=
  ∀ (x y w h : Byte) (s t : State) (c : Bool), draw x y w h s = .next (t, c) →
    ∃ d : Bool, draw x y w h t = .next (s, d) ∧
      ((∀ i j, inRect x y w h i j = true → s.display.px i j = false) →
        c = false ∧ (d = true ↔ 0 < w.toNat ∧ 0 < h.toNat))

/-! ## The block and its host -/

/-- 10_state R36, 41_display R126: the two reads return what the state holds and change nothing. -/
def Obligations.ReadsChangeNothing : Prop :=
  ∀ s : State,
    (∃ p : Plane, operate .readDisplay (some s) = .next (s, .pixels p) ∧
      ∀ x y, x < 64 → y < 32 → p.px x y = s.display.px x y) ∧
    operate .readState (some s) =
      .next (s, .registers { v := s.v, pc := s.pc, cf := s.cf, stack := s.stack })

/-- 70_reset_and_hazards R231 and 93_implementation_defined U15: before `PowerOn` no other operation has a meaning,
and none changes the block. -/
def Obligations.NothingBeforePowerOn : Prop :=
  ∀ op : HostOp, op ≠ .powerOn →
    operate op none = .refused .notPoweredOn ∧ Block.after none op = none

/-- 60_exceptions R209 with decision D16, and 40_fetch_decode_dispatch R106: an operation that faults leaves the
whole state as it was, and the same operation again faults alike. -/
def Obligations.FaultsLeaveNoTrace : Prop :=
  ∀ (b : Block) (op : HostOp) (f : Fault), operate op b = .fault f →
    Block.after b op = b ∧ operate op (Block.after b op) = .fault f

/-- 60_exceptions R217 (partly derived there): which operation can return which fault; `Step` returns three, and
each of the three occurs. -/
def Obligations.OperationFaultMatrix : Prop :=
  (∀ (b : Block) (op : HostOp) (f : Fault), operate op b = .fault f → match op with
    | .powerOn | .reset | .readDisplay | .readState => False
    | .load bytes => f = .imageTooLarge bytes.length
    | .draw x y w h => f = .displayBoundsExceeded x y w h
    | .step => (∃ a, f = .fetchOutOfRange a) ∨ (∃ w, f = .unimplementedOpcode w) ∨ f = .stackUnderflow) ∧
  (∃ s a, step s = .fault (.fetchOutOfRange a)) ∧ (∃ s w, step s = .fault (.unimplementedOpcode w)) ∧
  (∃ s, step s = .fault .stackUnderflow)

/-- 10_state R28, R30, R31, R32 and 40_fetch_decode_dispatch R105: the only operations, and within `Step` the only
words, that change memory, the display, the stack, `CF` and the registers. -/
def Obligations.WhoChangesWhat : Prop :=
  ∀ (s t : State) (op : HostOp) (o : Output), operate op (some s) = .next (t, o) →
    (t.mem ≠ s.mem → op = .powerOn ∨ ∃ bytes, op = .load bytes) ∧
    (t.display ≠ s.display → op = .powerOn ∨ (∃ x y w h, op = .draw x y w h) ∨
      (op = .step ∧ fetch s = .word 0x00E0#16)) ∧
    (t.stack ≠ s.stack → op = .powerOn ∨
      (op = .step ∧ ∃ w, fetch s = .word w ∧ (w = 0x00EE#16 ∨ w.extractLsb' 12 4 = 0x2#4))) ∧
    (t.cf ≠ s.cf → op = .powerOn ∨ op = .reset ∨
      (op = .step ∧ ∃ w, fetch s = .word w ∧ w.extractLsb' 12 4 = 0x8#4 ∧
        (w.extractLsb' 0 4 = 0x4#4 ∨ w.extractLsb' 0 4 = 0x5#4))) ∧
    (t.v ≠ s.v → op = .powerOn ∨ op = .reset ∨
      (op = .step ∧ ∃ w, fetch s = .word w ∧
        (w.extractLsb' 12 4 = 0x6#4 ∨ w.extractLsb' 12 4 = 0x7#4 ∨ w.extractLsb' 12 4 = 0x8#4)))
end

