-- ==== Sys2Proof/Laws/Display.lean ====
section
/-! SUPPORT. The laws of the display plane: a pixel read after a write, and what one row of the scan does. -/

namespace Sys2Proof.Machine

/-- Every pixel of the cleared plane is off. -/
theorem px_off (x y : Nat) : Plane.off.px x y = false := by
  simp only [Plane.px, Plane.off, PixelRow.off, Vector.getElem?_replicate]
  by_cases hy : y < 32 <;> by_cases hx : x < 64 <;> simp [hy, hx]

/-- A pixel inside the plane is the element of its row. -/
theorem px_eq {p : Plane} {x y : Nat} (hx : x < 64) (hy : y < 32) : p.px x y = p[y][x] := by
  simp [Plane.px, Vector.getElem?_eq_getElem hx, Vector.getElem?_eq_getElem hy]

/-- Two planes with the same pixels are equal. -/
theorem plane_ext {p q : Plane} (h : ∀ x y, x < 64 → y < 32 → p.px x y = q.px x y) : p = q := by
  refine Vector.ext fun y hy => Vector.ext fun x hx => ?_
  rw [← px_eq hx hy, ← px_eq hx hy]
  exact h x y hx hy

/-- What every pixel of the plane reads as after a write inside it. -/
theorem px_setPx {p : Plane} {x y i j : Nat} {b : Bool} (hx : x < 64) (hy : y < 32) :
    (p.setPx x y b).px i j = if i = x ∧ j = y then b else p.px i j := by
  by_cases hj : j = y
  · subst hj
    by_cases hi : i = x
    · subst hi
      simp [Plane.px, Plane.setPx, hx, hy]
    · have : ¬ x = i := fun h => hi h.symm
      simp [Plane.px, Plane.setPx, hy, hi, this]
  · have : ¬ y = j := fun h => hj h.symm
    simp [Plane.px, Plane.setPx, hj, this]

/-- One row of the scan, inside the plane: it inverts its `w` pixels and no other. -/
theorem px_drawRow {x y i j w : Nat} {acc : Plane × Bool} (hw : x + w ≤ 64) (hy : y < 32) :
    (drawRow x y w acc).1.px i j =
      (acc.1.px i j != (decide (x ≤ i) && decide (i < x + w) && decide (j = y))) := by
  induction w generalizing x acc with
  | zero =>
    have : (decide (x ≤ i) && decide (i < x + 0) && decide (j = y)) = false := by simp
    rw [this]
    simp [drawRow]
  | succ w ih =>
    rw [drawRow, ih (by omega), drawPixel, px_setPx (by omega) hy]
    by_cases hi : i = x
    · subst hi
      by_cases hj : j = y <;> simp [hj]
    · have h1 : (x + 1 ≤ i) = (x ≤ i) := by simp; omega
      have h2 : (i < x + 1 + w) = (i < x + (w + 1)) := by simp; omega
      simp [hi, h1, h2]

/-- The collision bit of one row of the scan: it was set before, or one of the row's pixels was on. -/
theorem collision_drawRow {x y w : Nat} {acc : Plane × Bool} (hw : x + w ≤ 64) (hy : y < 32) :
    ((drawRow x y w acc).2 = true) ↔ acc.2 = true ∨ ∃ i, x ≤ i ∧ i < x + w ∧ acc.1.px i y = true := by
  induction w generalizing x acc with
  | zero =>
    simp only [drawRow]
    constructor
    · exact .inl
    · rintro (h | ⟨i, h⟩)
      · exact h
      · omega
  | succ w ih =>
    rw [drawRow, ih (by omega)]
    simp only [drawPixel, Bool.or_eq_true]
    constructor
    · rintro ((h | h) | ⟨i, h1, h2, h3⟩)
      · exact .inl h
      · exact .inr ⟨x, le_refl _, by omega, h⟩
      · rw [px_setPx (by omega) hy, if_neg (by omega)] at h3
        exact .inr ⟨i, by omega, by omega, h3⟩
    · rintro (h | ⟨i, h1, h2, h3⟩)
      · exact .inl (.inl h)
      · by_cases hi : i = x
        · subst hi
          exact .inl (.inr h3)
        · refine .inr ⟨i, by omega, by omega, ?_⟩
          rw [px_setPx (by omega) hy, if_neg (by omega)]
          exact h3

end Sys2Proof.Machine
end

