-- ==== Sys2Proof/Laws/Memory.lean ====
section
/-! SUPPORT. The laws of memory: a read after a write, and that every memory operation keeps the canonical form. -/

namespace Sys2Proof.Machine

theorem memory_wfFrom_cons (lo a : Nat) (b : Byte) (m : Memory) :
    Memory.wfFrom lo ((a, b) :: m) = true ↔
      lo ≤ a ∧ a < 4096 ∧ b ≠ 0 ∧ Memory.wfFrom (a + 1) m = true := by
  simp [Memory.wfFrom, and_assoc]

theorem memory_wfFrom_mono {lo lo' : Nat} {m : Memory} (h : Memory.wfFrom lo m = true) (hl : lo' ≤ lo) :
    Memory.wfFrom lo' m = true := by
  cases m with
  | nil => rfl
  | cons c m =>
    obtain ⟨a, b⟩ := c
    rw [memory_wfFrom_cons] at h ⊢
    exact ⟨by omega, h.2⟩

/-- Below the first address of a canonical memory every byte reads as `MEM_INIT`. -/
theorem memory_read_below {lo a : Nat} {m : Memory} (h : Memory.wfFrom lo m = true) (ha : a < lo) :
    m.read a = 0 := by
  induction m generalizing lo with
  | nil => rfl
  | cons c m ih =>
    obtain ⟨a', b⟩ := c
    rw [memory_wfFrom_cons] at h
    rw [Memory.read, if_neg (by omega)]
    exact ih h.2.2.2 (by omega)

theorem memory_consCell_wfFrom {lo a : Nat} {b : Byte} {m : Memory} (hl : lo ≤ a) (ha : a < 4096)
    (h : Memory.wfFrom (a + 1) m = true) : Memory.wfFrom lo (Memory.consCell a b m) = true := by
  unfold Memory.consCell
  split
  · exact memory_wfFrom_mono h (by omega)
  · exact (memory_wfFrom_cons ..).2 ⟨hl, ha, by assumption, h⟩

theorem memory_write_wfFrom {lo a : Nat} {b : Byte} {m : Memory} (h : Memory.wfFrom lo m = true)
    (hl : lo ≤ a) (ha : a < 4096) : Memory.wfFrom lo (m.write a b) = true := by
  induction m generalizing lo with
  | nil => exact memory_consCell_wfFrom hl ha rfl
  | cons c m ih =>
    obtain ⟨a', b'⟩ := c
    have h' := (memory_wfFrom_cons ..).1 h
    unfold Memory.write
    split
    · exact memory_consCell_wfFrom hl ha ((memory_wfFrom_cons ..).2 ⟨by omega, h'.2⟩)
    · split
      · subst a
        exact memory_consCell_wfFrom hl ha h'.2.2.2
      · exact (memory_wfFrom_cons ..).2 ⟨h'.1, h'.2.1, h'.2.2.1, ih h'.2.2.2 (by omega)⟩

/-- A write inside memory keeps the canonical form. -/
theorem memory_write_wf {a : Nat} {b : Byte} {m : Memory} (h : m.wf = true) (ha : a < 4096) :
    (m.write a b).wf = true :=
  memory_write_wfFrom h (Nat.zero_le a) ha

/-- A write of several bytes inside memory keeps the canonical form. -/
theorem memory_writeBytes_wf {a : Nat} {bs : List Byte} {m : Memory} (h : m.wf = true)
    (ha : a + bs.length ≤ 4096) : (m.writeBytes a bs).wf = true := by
  induction bs generalizing a m with
  | nil => exact h
  | cons b bs ih =>
    simp only [List.length_cons] at ha
    exact ih (memory_write_wf h (by omega)) (by omega)

/-- Storing an instruction word inside memory keeps the canonical form. -/
theorem storeWord_wf {a : Nat} {w : Word} {m : Memory} (h : m.wf = true) (ha : a + 2 ≤ 4096) :
    (storeWord m a w).wf = true :=
  memory_writeBytes_wf h ha

theorem memory_read_consCell_self {a : Nat} {b : Byte} {m : Memory} (h : m.read a = 0) :
    (Memory.consCell a b m).read a = b := by
  unfold Memory.consCell
  split
  · simp_all
  · simp [Memory.read]

theorem memory_read_consCell_other {a a' : Nat} {b : Byte} {m : Memory} (h : a' ≠ a) :
    (Memory.consCell a b m).read a' = m.read a' := by
  unfold Memory.consCell
  split
  · rfl
  · simp [Memory.read, h]

/-- A write leaves every other address alone. -/
theorem memory_read_write_other {a a' : Nat} {b : Byte} {m : Memory} (h : a' ≠ a) :
    (m.write a b).read a' = m.read a' := by
  induction m with
  | nil => exact memory_read_consCell_other h
  | cons c m ih =>
    obtain ⟨a₁, b₁⟩ := c
    unfold Memory.write
    split
    · exact memory_read_consCell_other h
    · split
      · subst a
        rw [memory_read_consCell_other h, Memory.read, if_neg h]
      · simp only [Memory.read, ih]

theorem memory_read_write_self_from {lo a : Nat} {b : Byte} {m : Memory} (h : Memory.wfFrom lo m = true) :
    (m.write a b).read a = b := by
  induction m generalizing lo with
  | nil => exact memory_read_consCell_self rfl
  | cons c m ih =>
    obtain ⟨a₁, b₁⟩ := c
    have h' := (memory_wfFrom_cons ..).1 h
    unfold Memory.write
    split
    · refine memory_read_consCell_self ?_
      rw [Memory.read, if_neg (by omega)]
      exact memory_read_below h'.2.2.2 (by omega)
    · split
      · subst a
        exact memory_read_consCell_self (memory_read_below h'.2.2.2 (by omega))
      · rw [Memory.read, if_neg (by omega)]
        exact ih h'.2.2.2

/-- A read after a write to the same address gives the byte written. -/
theorem memory_read_write_self {a : Nat} {b : Byte} {m : Memory} (h : m.wf = true) :
    (m.write a b).read a = b :=
  memory_read_write_self_from h

/-- Outside the bytes written, every address reads as before. -/
theorem memory_read_writeBytes_outside {a a' : Nat} {bs : List Byte} {m : Memory}
    (h : a' < a ∨ a + bs.length ≤ a') : (m.writeBytes a bs).read a' = m.read a' := by
  induction bs generalizing a m with
  | nil => rfl
  | cons b bs ih =>
    simp only [List.length_cons] at h
    rw [Memory.writeBytes, ih (by omega), memory_read_write_other (by omega)]

/-- Inside the bytes written, every address reads as its byte. -/
theorem memory_read_writeBytes_inside {a k : Nat} {bs : List Byte} {m : Memory} (h : m.wf = true)
    (ha : a + bs.length ≤ 4096) (hk : k < bs.length) : (m.writeBytes a bs).read (a + k) = bs[k] := by
  induction bs generalizing a k m with
  | nil => simp at hk
  | cons b bs ih =>
    simp only [List.length_cons] at ha hk
    cases k with
    | zero =>
      rw [Memory.writeBytes, memory_read_writeBytes_outside (by omega)]
      simpa using memory_read_write_self h
    | succ k =>
      rw [Memory.writeBytes, show a + (k + 1) = a + 1 + k by omega,
        ih (memory_write_wf h (by omega)) (by omega) (by omega)]
      rfl

/-- The memory after power-on is in canonical form. -/
theorem reset_memory_wf : State.reset.mem.wf = true := rfl

end Sys2Proof.Machine
end

