-- ==== Sys2Proof/Laws/State.lean ====
section
/-! SUPPORT. One lemma per field of `State` per named update, so that no proof unfolds a record update. -/

namespace Sys2Proof.Machine

variable (s : State)

@[simp] theorem advance_v : (advance s).v = s.v := rfl
@[simp] theorem advance_pc : (advance s).pc = s.pc + 2 := rfl
@[simp] theorem advance_cf : (advance s).cf = s.cf := rfl
@[simp] theorem advance_stack : (advance s).stack = s.stack := rfl
@[simp] theorem advance_mem : (advance s).mem = s.mem := rfl
@[simp] theorem advance_display : (advance s).display = s.display := rfl

@[simp] theorem skip_v : (skip s).v = s.v := rfl
@[simp] theorem skip_pc : (skip s).pc = s.pc + 2 + 2 := rfl
@[simp] theorem skip_cf : (skip s).cf = s.cf := rfl
@[simp] theorem skip_stack : (skip s).stack = s.stack := rfl
@[simp] theorem skip_mem : (skip s).mem = s.mem := rfl
@[simp] theorem skip_display : (skip s).display = s.display := rfl

variable (t : Word)

@[simp] theorem jumpTo_v : (jumpTo t s).v = s.v := rfl
@[simp] theorem jumpTo_pc : (jumpTo t s).pc = t := rfl
@[simp] theorem jumpTo_cf : (jumpTo t s).cf = s.cf := rfl
@[simp] theorem jumpTo_stack : (jumpTo t s).stack = s.stack := rfl
@[simp] theorem jumpTo_mem : (jumpTo t s).mem = s.mem := rfl
@[simp] theorem jumpTo_display : (jumpTo t s).display = s.display := rfl

variable (i : RegIdx) (b : Byte)

@[simp] theorem setReg_v : (setReg i b s).v = s.v.setIfInBounds i b := rfl
@[simp] theorem setReg_pc : (setReg i b s).pc = s.pc := rfl
@[simp] theorem setReg_cf : (setReg i b s).cf = s.cf := rfl
@[simp] theorem setReg_stack : (setReg i b s).stack = s.stack := rfl
@[simp] theorem setReg_mem : (setReg i b s).mem = s.mem := rfl
@[simp] theorem setReg_display : (setReg i b s).display = s.display := rfl

@[simp] theorem hostReset_pc : (hostReset s).pc = 0 := rfl
@[simp] theorem hostReset_cf : (hostReset s).cf = false := rfl
@[simp] theorem hostReset_stack : (hostReset s).stack = s.stack := rfl
@[simp] theorem hostReset_mem : (hostReset s).mem = s.mem := rfl
@[simp] theorem hostReset_display : (hostReset s).display = s.display := rfl

@[simp] theorem reset_pc : State.reset.pc = 0 := rfl
@[simp] theorem reset_cf : State.reset.cf = false := rfl
@[simp] theorem reset_stack : State.reset.stack = [] := rfl
@[simp] theorem reset_mem : State.reset.mem = [] := rfl
@[simp] theorem reset_display : State.reset.display = Plane.off := rfl

end Sys2Proof.Machine
end

