-- ==== Sys2Proof/Laws/Ops.lean ====
section
/-! SUPPORT. For each shared operation, one lemma that says all it can do; proofs cite these and do not unfold the
operation. -/

namespace Sys2Proof.Machine

/-! Registers. -/

/-- A register below `NREGS` reads as its element. -/
theorem readReg_eq {s : State} {i : RegIdx} (h : i < Config.nregs) : readReg s i = s.v[i] := by
  simp [readReg, Vector.getElem?_eq_getElem h]

/-- What every register reads as after a write. -/
theorem readReg_setReg (s : State) (i j : RegIdx) (b : Byte) :
    readReg (setReg i b s) j = if i = j ∧ j < Config.nregs then b else readReg s j := by
  by_cases hj : j < 16
  · rw [readReg_eq hj, readReg_eq hj]
    simp [Vector.getElem_setIfInBounds, hj]
  · simp [readReg, hj]

@[simp] theorem readReg_advance (s : State) (i : RegIdx) : readReg (advance s) i = readReg s i := rfl
@[simp] theorem readReg_skip (s : State) (i : RegIdx) : readReg (skip s) i = readReg s i := rfl
@[simp] theorem readReg_jumpTo (s : State) (t : Word) (i : RegIdx) : readReg (jumpTo t s) i = readReg s i := rfl

/-- One register in range: the guard lets the outcome through. -/
theorem guardRegs_one {x : RegIdx} {o : Outcome} (h : x < Config.nregs) : guardRegs [x] o = o := by
  have : ¬ 16 ≤ x := by simpa using h
  simp [guardRegs, this]

/-- Two registers in range: the guard lets the outcome through. -/
theorem guardRegs_two {x y : RegIdx} {o : Outcome} (hx : x < Config.nregs) (hy : y < Config.nregs) :
    guardRegs [x, y] o = o := by
  have h1 : ¬ 16 ≤ x := by simpa using hx
  have h2 : ¬ 16 ≤ y := by simpa using hy
  simp [guardRegs, h1, h2]

/-- The guard lets the outcome through, with every index in range, or faults with the first that is not. -/
theorem guardRegs_cases (rs : List RegIdx) (o : Outcome) :
    (guardRegs rs o = o ∧ ∀ r ∈ rs, r < Config.nregs) ∨
    (∃ r ∈ rs, Config.nregs ≤ r ∧ guardRegs rs o = .fault (.registerIndexOutOfRange r)) := by
  unfold guardRegs
  split
  · rename_i r h
    exact .inr ⟨r, List.mem_of_find?_eq_some h, by simpa using List.find?_some h, rfl⟩
  · rename_i h
    refine .inl ⟨rfl, fun r hr => ?_⟩
    have := List.find?_eq_none.1 h r hr
    simpa using this

/-- A guarded outcome that is a next state was let through. -/
theorem guardRegs_next {rs : List RegIdx} {o : Outcome} {t : State} (h : guardRegs rs o = .next t) :
    o = .next t ∧ ∀ r ∈ rs, r < Config.nregs := by
  obtain ⟨he, hr⟩ | ⟨r, _, _, he⟩ := guardRegs_cases rs o
  · exact ⟨he ▸ h, hr⟩
  · rw [he] at h
    cases h

/-! The call stack. -/

/-- With the unbounded depth a push never faults (10_state R30). -/
theorem push_eq (v : Word) (s : State) : push v s = .next { s with stack := s.stack ++ [v] } := rfl

theorem pop_empty {s : State} {k : Word → State → Outcome} (h : s.stack = []) :
    pop s k = .fault .stackUnderflow := by
  simp [pop, h, raise]

theorem pop_append {s : State} {k : Word → State → Outcome} {st : List Word} {v : Word}
    (h : s.stack = st ++ [v]) : pop s k = k v { s with stack := st } := by
  simp [pop, h]

/-- A call stack is empty or has a top. -/
theorem stack_cases (l : List Word) : l = [] ∨ ∃ st v, l = st ++ [v] :=
  List.eq_nil_or_concat' l

/-! Dispatch of the shared forms. -/

theorem skipIf_eq (c : Bool) (s : State) : skipIf c s = .next (if c then skip s else advance s) := rfl

theorem aluNeutral_next {f : Byte → Byte → Byte} {x y : RegIdx} {s : State} (hx : x < Config.nregs)
    (hy : y < Config.nregs) :
    aluNeutral f x y s = .next (advance (setReg x (f (readReg s x) (readReg s y)) s)) :=
  guardRegs_two hx hy

theorem aluFlagged_next {f : Byte → Byte → Byte} {c : Byte → Byte → Bool} {x y : RegIdx} {s : State}
    (hx : x < Config.nregs) (hy : y < Config.nregs) :
    aluFlagged f c x y s = .next (advance
      { setReg x (f (readReg s x) (readReg s y)) s with cf := c (readReg s x) (readReg s y) }) :=
  guardRegs_two hx hy

/-! Flags. -/

/-- The narrowed sum is the wrapping sum. -/
theorem addResult_eq (a b : Byte) : addResult a b = a + b := by
  apply BitVec.eq_of_toNat_eq
  simp [addResult, wideSum, BitVec.toNat_add]

/-- The narrowed difference is the wrapping difference. -/
theorem subResult_eq (a b : Byte) : subResult a b = a - b := by
  apply BitVec.eq_of_toInt_eq
  rw [subResult, wideDiff, BitVec.toInt_ofInt, BitVec.toInt_sub, BitVec.toInt_eq_toNat_bmod,
    BitVec.toInt_eq_toNat_bmod]
  simp

/-- A borrow happens exactly when the minuend is below the subtrahend. -/
theorem subBorrow_eq (a b : Byte) : subBorrow a b = decide (a.toNat < b.toNat) := by
  unfold subBorrow wideDiff
  exact decide_eq_decide.2 (by omega)

/-! The fetch. -/

/-- The fetch reads two bytes, or is out of range. -/
theorem fetch_cases (s : State) :
    (s.pc.toNat + 1 < 4096 ∧
      fetch s = .word (wordOfBytes (s.mem.read s.pc.toNat) (s.mem.read (s.pc.toNat + 1)))) ∨
    (4096 ≤ s.pc.toNat + 1 ∧ fetch s = .outOfRange s.pc) := by
  unfold fetch fetchable
  by_cases h : s.pc.toNat + 1 < 4096
  · exact .inl ⟨h, by simp [h]⟩
  · exact .inr ⟨by omega, by simp [h]⟩

/-- Everything a step can be, by the order of its actions (40_fetch_decode_dispatch R101). -/
theorem step_cases (s : State) :
    (∃ w i, fetch s = .word w ∧ decode w = .instr i ∧ step s = exec i s) ∨
    (∃ w u, fetch s = .word w ∧ decode w = .unimplementedOpcode u ∧
      step s = .fault (.unimplementedOpcode u)) ∨
    (∃ a, fetch s = .outOfRange a ∧ step s = .fault (.fetchOutOfRange a)) := by
  unfold step
  cases hf : fetch s with
  | outOfRange a => exact .inr (.inr ⟨a, rfl, rfl⟩)
  | word w =>
    cases hd : decode w with
    | instr i => exact .inl ⟨w, i, rfl, hd, by simp [hd]⟩
    | unimplementedOpcode u => exact .inr (.inl ⟨w, u, rfl, hd, by simp [hd, raise]⟩)

end Sys2Proof.Machine
end

