-- ==== Sys2Proof/Laws/PerInstr.lean ====
section
/-! SUPPORT. The per-instruction family `TableRow`: the word of an instruction selects the row of the opcode table
that has its mnemonic (30_encoding R76). -/

namespace Sys2Proof.Laws

/-- Under the mask of a family alone, a format A word keeps its family and nothing else. -/
theorem formatA_masked (f : Nibble) (nnn : Addr) : formatA f nnn &&& 0xF000#16 = f ++ 0#12 := by
  rw [show (0xF000#16 : Word) = 0xF#4 ++ 0#12 from rfl, formatA, BitVec.and_append]
  simp [show (0xF#4 : Nibble) = BitVec.allOnes 4 from rfl, -BitVec.reduceAllOnes]

/-- Under the mask of a family alone, a format RI word keeps its family and nothing else. -/
theorem formatRI_masked (f : Nibble) (x : RegIdx) (nn : Byte) :
    formatRI f x nn &&& 0xF000#16 = f ++ 0#12 :=
  formatA_masked f (BitVec.ofNat 4 x ++ nn)

/-- Under the mask of family and low nibble, a format RR word keeps these two and nothing else. -/
theorem formatRR_masked (f : Nibble) (x y : RegIdx) (n : Nibble) :
    formatRR f x y n &&& 0xF00F#16 = f ++ (0#8 ++ n) := by
  rw [show (0xF00F#16 : Word) = 0xF#4 ++ (0#4 ++ (0#4 ++ 0xF#4)) from rfl, formatRR, BitVec.and_append,
    BitVec.and_append, BitVec.and_append]
  simp only [show (0xF#4 : Nibble) = BitVec.allOnes 4 from rfl, BitVec.and_allOnes, BitVec.and_zero]
  revert f n
  decide

/-- The instruction's word selects a row of the table with the instruction's mnemonic. -/
def TableRow.Statement (i : Instr) : Prop :=
  ∃ r ∈ opcodeTable, r.mnemonic = i.mnemonic ∧ r.selects (encode i) = true

theorem TableRow.cls : TableRow.Statement .cls :=
  ⟨⟨"CLS", 0xFFFF, 0x00E0⟩, by simp [opcodeTable], rfl, by decide⟩

theorem TableRow.ret : TableRow.Statement .ret :=
  ⟨⟨"RET", 0xFFFF, 0x00EE⟩, by simp [opcodeTable], rfl, by decide⟩

theorem TableRow.jp (nnn : Addr) : TableRow.Statement (.jp nnn) :=
  ⟨⟨"JP", 0xF000, 0x1000⟩, by simp [opcodeTable], rfl, beq_iff_eq.2 (formatA_masked _ nnn)⟩

theorem TableRow.call (nnn : Addr) : TableRow.Statement (.call nnn) :=
  ⟨⟨"CALL", 0xF000, 0x2000⟩, by simp [opcodeTable], rfl, beq_iff_eq.2 (formatA_masked _ nnn)⟩

theorem TableRow.seImm (x : RegIdx) (nn : Byte) : TableRow.Statement (.seImm x nn) :=
  ⟨⟨"SE_imm", 0xF000, 0x3000⟩, by simp [opcodeTable], rfl, beq_iff_eq.2 (formatRI_masked _ x nn)⟩

theorem TableRow.sneImm (x : RegIdx) (nn : Byte) : TableRow.Statement (.sneImm x nn) :=
  ⟨⟨"SNE_imm", 0xF000, 0x4000⟩, by simp [opcodeTable], rfl, beq_iff_eq.2 (formatRI_masked _ x nn)⟩

theorem TableRow.seReg (x y : RegIdx) : TableRow.Statement (.seReg x y) :=
  ⟨⟨"SE_reg", 0xF00F, 0x5000⟩, by simp [opcodeTable], rfl, beq_iff_eq.2 (formatRR_masked _ x y _)⟩

theorem TableRow.ldImm (x : RegIdx) (nn : Byte) : TableRow.Statement (.ldImm x nn) :=
  ⟨⟨"LD_imm", 0xF000, 0x6000⟩, by simp [opcodeTable], rfl, beq_iff_eq.2 (formatRI_masked _ x nn)⟩

theorem TableRow.addImm (x : RegIdx) (nn : Byte) : TableRow.Statement (.addImm x nn) :=
  ⟨⟨"ADD_imm", 0xF000, 0x7000⟩, by simp [opcodeTable], rfl, beq_iff_eq.2 (formatRI_masked _ x nn)⟩

theorem TableRow.ldReg (x y : RegIdx) : TableRow.Statement (.ldReg x y) :=
  ⟨⟨"LD_reg", 0xF00F, 0x8000⟩, by simp [opcodeTable], rfl, beq_iff_eq.2 (formatRR_masked _ x y _)⟩

theorem TableRow.or (x y : RegIdx) : TableRow.Statement (.or x y) :=
  ⟨⟨"OR", 0xF00F, 0x8001⟩, by simp [opcodeTable], rfl, beq_iff_eq.2 (formatRR_masked _ x y _)⟩

theorem TableRow.and (x y : RegIdx) : TableRow.Statement (.and x y) :=
  ⟨⟨"AND", 0xF00F, 0x8002⟩, by simp [opcodeTable], rfl, beq_iff_eq.2 (formatRR_masked _ x y _)⟩

theorem TableRow.xor (x y : RegIdx) : TableRow.Statement (.xor x y) :=
  ⟨⟨"XOR", 0xF00F, 0x8003⟩, by simp [opcodeTable], rfl, beq_iff_eq.2 (formatRR_masked _ x y _)⟩

theorem TableRow.addReg (x y : RegIdx) : TableRow.Statement (.addReg x y) :=
  ⟨⟨"ADD_reg", 0xF00F, 0x8004⟩, by simp [opcodeTable], rfl, beq_iff_eq.2 (formatRR_masked _ x y _)⟩

theorem TableRow.sub (x y : RegIdx) : TableRow.Statement (.sub x y) :=
  ⟨⟨"SUB", 0xF00F, 0x8005⟩, by simp [opcodeTable], rfl, beq_iff_eq.2 (formatRR_masked _ x y _)⟩

end Sys2Proof.Laws
end

