-- ==== Sys2Proof/Tests/Slice0.lean ====
section
/-! SUPPORT. The model's own tests. Expected results are the vectors of spec/95_test_vectors.md (section given at
each group) or the worked examples of the rules. The last part holds, for every statement with hypotheses, a
concrete case that meets them. -/

namespace Sys2Proof.Tests

open Sys2Proof.Machine

/-- The power-on state with `pc` at `a` and the word `w` stored there. -/
def wordAt (a : Nat) (w : Word) : State :=
  { State.reset with pc := BitVec.ofNat 16 a, mem := storeWord [] a w }

/-- `wordAt 0x200` with registers `V[x]` and `V[y]` and the flag set. -/
def aluAt (w : Word) (x : RegIdx) (a : Byte) (y : RegIdx) (b : Byte) (c : Bool) : State :=
  { setReg y b (setReg x a (wordAt 0x200 w)) with cf := c }

/-- What a next state shows of itself. -/
def after {α : Type} (f : State → α) : Outcome → Option α
  | .next s => some (f s)
  | .fault _ => none
  | .refused _ => none

/-- The fault of an outcome. -/
def faultOf {σ : Type} : Host.Outcome σ Fault Refusal → Option Fault
  | .next _ => none
  | .fault f => some f
  | .refused _ => none

/-- `V[x]`, `CF` and `pc` of the next state. -/
def alu (x : RegIdx) (o : Outcome) : Option (Byte × Bool × Word) :=
  after (fun s => (readReg s x, s.cf, s.pc)) o

/-- `pc` and the stack of the next state. -/
def flow (o : Outcome) : Option (Word × List Word) := after (fun s => (s.pc, s.stack)) o

/-! ## WellFormed: an ill-formed term for each check is refused. -/

theorem test_wf_accepts : (Instr.xor 15 15).wf = true ∧ (Instr.call 0xFFF).wf = true := by decide

theorem test_wf_refuses_x : (Instr.seImm 16 0).wf = false ∧ (Instr.sneImm 16 0).wf = false ∧
    (Instr.ldImm 16 0).wf = false ∧ (Instr.addImm 16 0).wf = false ∧ (Instr.seReg 16 0).wf = false ∧
    (Instr.ldReg 16 0).wf = false ∧ (Instr.or 16 0).wf = false ∧ (Instr.and 16 0).wf = false ∧
    (Instr.xor 16 0).wf = false ∧ (Instr.addReg 16 0).wf = false ∧ (Instr.sub 16 0).wf = false := by decide

theorem test_wf_refuses_y : (Instr.seReg 0 16).wf = false ∧ (Instr.ldReg 0 16).wf = false ∧
    (Instr.or 0 16).wf = false ∧ (Instr.and 0 16).wf = false ∧ (Instr.xor 0 16).wf = false ∧
    (Instr.addReg 0 16).wf = false ∧ (Instr.sub 0 16).wf = false := by decide

/-! ## Decode: every constructor, by a word written out from 30_encoding R76 (95_test_vectors 2.1). -/

theorem test_decode_cls : decode 0b0000000011100000#16 = .instr .cls := by decide
theorem test_decode_ret : decode 0b0000000011101110#16 = .instr .ret := by decide
theorem test_decode_jp : decode 0b0001000011100000#16 = .instr (.jp 0x0E0) := by decide
theorem test_decode_call : decode 0b0010101010111100#16 = .instr (.call 0xABC) := by decide
theorem test_decode_seImm : decode 0b0011101001111111#16 = .instr (.seImm 10 0x7F) := by decide
theorem test_decode_sneImm : decode 0b0100111100000000#16 = .instr (.sneImm 15 0x00) := by decide
theorem test_decode_seReg : decode 0b0101101010110000#16 = .instr (.seReg 10 11) := by decide
theorem test_decode_ldImm : decode 0b0110111100010010#16 = .instr (.ldImm 15 0x12) := by decide
theorem test_decode_addImm : decode 0b0111111000000001#16 = .instr (.addImm 14 0x01) := by decide
theorem test_decode_ldReg : decode 0b1000101010110000#16 = .instr (.ldReg 10 11) := by decide
theorem test_decode_or : decode 0b1000101010110001#16 = .instr (.or 10 11) := by decide
theorem test_decode_and : decode 0b1000101010110010#16 = .instr (.and 10 11) := by decide
theorem test_decode_xor : decode 0b1000101010110011#16 = .instr (.xor 10 11) := by decide
theorem test_decode_addReg : decode 0b1000101010110100#16 = .instr (.addReg 10 11) := by decide
theorem test_decode_sub : decode 0b1000101010110101#16 = .instr (.sub 10 11) := by decide

theorem test_decode_family0_strict :
    [0x0000#16, 0x00E1#16, 0x00FE#16, 0x01E0#16, 0x0EE0#16].map decode =
      [0x0000#16, 0x00E1#16, 0x00FE#16, 0x01E0#16, 0x0EE0#16].map .unimplementedOpcode := by decide

theorem test_decode_family5_family8_strict :
    [0x5AB1#16, 0x5ABF#16, 0x8AB6#16, 0x8AB7#16, 0x8ABE#16, 0x8ABF#16].map decode =
      [0x5AB1#16, 0x5ABF#16, 0x8AB6#16, 0x8AB7#16, 0x8ABE#16, 0x8ABF#16].map .unimplementedOpcode := by decide

theorem test_decode_other_families :
    [0x9AB0#16, 0xA123#16, 0xB000#16, 0xC0FF#16, 0xD005#16, 0xE09E#16, 0xF007#16, 0xFFFF#16].map decode =
      [0x9AB0#16, 0xA123#16, 0xB000#16, 0xC0FF#16, 0xD005#16, 0xE09E#16, 0xF007#16, 0xFFFF#16].map
        .unimplementedOpcode := by decide

theorem test_encode_rr_fields : encode (.sub 10 11) = 0x8AB5#16 := by decide
theorem test_encode_ri_fields : encode (.seImm 10 0x7F) = 0x3A7F#16 := by decide
theorem test_bytes_high_first : encodeBytes (.jp 0x234) = [0x12#8, 0x34#8] := by decide
theorem test_bytes_truncated : decodeBytes [0x12#8] = .truncated ∧ decodeBytes [] = .truncated := by decide
theorem test_table_word : decodeTableWord 16 0x8AB5 = some (.sub 10 11) := by decide

/-! ## Fetch and Step (95_test_vectors 2.2; 40_fetch_decode_dispatch R108). -/

theorem test_step_big_endian : flow (step (wordAt 0x200 0x1234)) = some (0x234, []) := by decide
theorem test_step_odd_pc : alu 0 (step (wordAt 0x201 0x6007)) = some (7, false, 0x203) := by decide
theorem test_step_top_of_memory : alu 10 (step (wordAt 4094 0x6A01)) = some (1, false, 4096) := by decide
theorem test_step_fetch_4095 :
    faultOf (step { State.reset with pc := 4095 }) = some (.fetchOutOfRange 4095) := by decide
theorem test_step_fetch_ffff :
    faultOf (step { State.reset with pc := 0xFFFF }) = some (.fetchOutOfRange 0xFFFF) := by decide
theorem test_step_after_power_on : faultOf (step State.reset) = some (.unimplementedOpcode 0) := by decide
theorem test_step_unimplemented :
    faultOf (step (wordAt 0x200 0xD005)) = some (.unimplementedOpcode 0xD005) := by decide
theorem test_withFetchWord : alu 3 (step (State.reset.withFetchWord 16 0x632A)) = some (0x2A, false, 2) := by decide
theorem test_withFetchWord_top :
    alu 3 (step (State.withFetchWord { State.reset with pc := 4095 } 16 0x632A)) = some (0x2A, false, 0x202) := by
  decide

/-! ## Control transfer (95_test_vectors 2.4). -/

theorem test_jp_fff : flow (step (wordAt 0x200 0x1FFF)) = some (0xFFF, []) := by decide
theorem test_jp_self : after id (step (wordAt 0x20E 0x120E)) = some (wordAt 0x20E 0x120E) := by decide
theorem test_call : flow (step (wordAt 0x202 0x230A)) = some (0x30A, [0x0204]) := by decide
theorem test_call_nested_top_last :
    flow (step { wordAt 4094 0x2300 with stack := [0x0204] }) = some (0x300, [0x0204, 0x1000]) := by decide
theorem test_ret :
    flow (step { wordAt 0x400 0x00EE with stack := [0x0204, 0x0310] }) = some (0x0310, [0x0204]) := by decide
theorem test_ret_empty : faultOf (step (wordAt 0x400 0x00EE)) = some .stackUnderflow := by decide
theorem test_seImm_equal : flow (step (aluAt 0x3215 2 0x15 0 0 true)) = some (0x204, []) := by decide
theorem test_seImm_compares_register : flow (step (aluAt 0x3015 2 0x15 0 0 true)) = some (0x202, []) := by decide
theorem test_sneImm_equal : flow (step (aluAt 0x4215 2 0x15 0 0 true)) = some (0x202, []) := by decide
theorem test_sneImm_differs : flow (step (aluAt 0x4200 2 0x15 0 0 true)) = some (0x204, []) := by decide
theorem test_seReg_equal : flow (step (aluAt 0x5140 1 7 4 7 false)) = some (0x204, []) := by decide
theorem test_seReg_differs : flow (step (aluAt 0x5140 1 7 4 8 false)) = some (0x202, []) := by decide

/-! ## Register-immediate (95_test_vectors 2.5). -/

theorem test_ldImm : alu 10 (step (aluAt 0x6AFF 10 0x33 0 0 false)) = some (0xFF, false, 0x202) := by decide
theorem test_ldImm_vf_is_not_cf : alu 15 (step (aluAt 0x6F00 15 0x01 0 0 true)) = some (0, true, 0x202) := by decide
theorem test_addImm_wraps : alu 0 (step (aluAt 0x7020 0 0xF0 1 0 false)) = some (0x10, false, 0x202) := by decide
theorem test_addImm_keeps_cf : alu 0 (step (aluAt 0x7001 0 0x10 1 0 true)) = some (0x11, true, 0x202) := by decide

/-! ## Arithmetic and logic (95_test_vectors 2.6). -/

theorem test_ldReg : alu 0 (step (aluAt 0x8010 0 0x00 1 0x3C true)) = some (0x3C, true, 0x202) := by decide
theorem test_or : alu 0 (step (aluAt 0x8011 0 0xF0 1 0x0F true)) = some (0xFF, true, 0x202) := by decide
theorem test_and : alu 0 (step (aluAt 0x8012 0 0xF0 1 0x3C false)) = some (0x30, false, 0x202) := by decide
theorem test_xor : alu 0 (step (aluAt 0x8013 0 0xF0 1 0x3C true)) = some (0xCC, true, 0x202) := by decide
theorem test_xor_same : alu 3 (step (aluAt 0x8333 3 0x90 3 0x90 false)) = some (0, false, 0x202) := by decide
theorem test_addReg_same : alu 3 (step (aluAt 0x8334 3 0x90 3 0x90 false)) = some (0x20, true, 0x202) := by decide
theorem test_addReg_clears_cf : alu 0 (step (aluAt 0x8014 0 0x7F 1 0x80 true)) = some (0xFF, false, 0x202) := by decide
theorem test_sub_borrow : alu 0 (step (aluAt 0x8015 0 0x2D 1 0x64 false)) = some (0xC9, true, 0x202) := by decide
theorem test_sub_clears_cf : alu 0 (step (aluAt 0x8015 0 0x64 1 0x2D true)) = some (0x37, false, 0x202) := by decide

/-! ## Display (95_test_vectors 2.3; 41_display R128). -/

/-- A plane with two pixels on (41_display R120, worked example). -/
def twoOn : Plane := (Plane.off.setPx 3 4 true).setPx 63 31 true

theorem test_cls : after (fun s => (s.display == Plane.off, s.pc))
    (step { wordAt 0x200 0x00E0 with display := twoOn }) = some (true, 0x202) := by decide

/-- The display and the collision bit of a `Draw` on a plane. -/
def drawn (x y w h : Byte) (p : Plane) : Option (Plane × Bool) :=
  match draw x y w h { State.reset with display := p } with
  | .next r => some (r.1.display, r.2)
  | .fault _ => none
  | .refused _ => none

theorem test_draw_corner : drawn 63 31 1 1 twoOn = some (Plane.off.setPx 3 4 true, true) := by decide
theorem test_draw_empty : drawn 64 0 0 5 twoOn = some (twoOn, false) := by decide
theorem test_draw_empty_checked : drawn 65 0 0 1 twoOn = none := by decide
theorem test_draw_no_wrap :
    faultOf (draw 200 0 100 1 State.reset) = some (.displayBoundsExceeded 200 0 100 1) := by decide
theorem test_draw_bounds_example :
    faultOf (draw 60 30 8 8 State.reset) = some (.displayBoundsExceeded 60 30 8 8) := by decide
theorem test_draw_small : (drawn 2 1 2 1 Plane.off) =
    some ((Plane.off.setPx 2 1 true).setPx 3 1 true, false) := by decide

/-! ## Initialising operations (95_test_vectors 2.7). -/

/-- A state with every item changed. -/
def busy : State :=
  { setReg 3 9 State.reset with
    pc := 0x300, cf := true, stack := [0x0204], mem := [(0x200, 0xAA), (0x203, 0xDD)], display := twoOn }

theorem test_load_image : after (fun s => (s.mem, s.pc)) (load [0x12, 0x00, 0x05] State.reset) =
    some ([(0x200, 0x12), (0x202, 0x05)], 0x200) := by decide
theorem test_load_empty : after id (load [] busy) = some { busy with pc := 0x200 } := by decide
theorem test_load_keeps_tail : after (fun s => s.mem) (load [0x00] busy) = some [(0x203, 0xDD)] := by decide
theorem test_load_too_long :
    faultOf (load (List.replicate 3585 0) busy) = some (.imageTooLarge 3585) := by
  rw [load, if_neg (by rw [List.length_replicate]; decide), List.length_replicate]
  rfl
theorem test_reset_operation : hostReset busy =
    { State.reset with stack := [0x0204], mem := busy.mem, display := twoOn } := by decide
theorem test_reset_memory_canonical : State.reset.mem.wf = true := by decide

/-! ## Witnesses: the hypotheses of each statement are met. -/

theorem witness_ReturnResult : (wordAt 0x400 0x00EE).stack = [] ∧
    ({ State.reset with stack := [0x0204, 0x0310] }).stack = [0x0204] ++ [0x0310] ∧
    step (wordAt 0x400 0x00EE) = .fault .stackUnderflow :=
  ⟨rfl, rfl, rfl⟩

theorem witness_JumpResult : (0x1FFF#16).extractLsb' 12 4 = 0x1#4 ∧ (0x1000#16).extractLsb' 12 4 = 0x1#4 := by decide

theorem witness_CallResult : (0x2FFF#16).extractLsb' 12 4 = 0x2#4 ∧ (0x2000#16).extractLsb' 12 4 = 0x2#4 := by decide

/-- The register clauses of the fifteen results: the last index in range, the first out of range. -/
theorem witness_register_indexes :
    (15 : RegIdx) < Config.nregs ∧ (0 : RegIdx) < Config.nregs ∧ Config.nregs ≤ (16 : RegIdx) := by decide

theorem witness_SkipEqualImmediateResult : (0x3FFF#16).extractLsb' 12 4 = 0x3#4 ∧ (15 : RegIdx) < Config.nregs ∧
    Config.nregs ≤ (16 : RegIdx) := by decide
theorem witness_SkipNotEqualImmediateResult : (0x4F00#16).extractLsb' 12 4 = 0x4#4 ∧ (15 : RegIdx) < Config.nregs ∧
    Config.nregs ≤ (16 : RegIdx) := by decide
theorem witness_SkipEqualRegisterResult : (0x5FF0#16).extractLsb' 12 4 = 0x5#4 ∧
    (0x5FF0#16).extractLsb' 0 4 = 0x0#4 ∧ (15 : RegIdx) < Config.nregs ∧ Config.nregs ≤ (16 : RegIdx) := by decide
theorem witness_LoadImmediateResult : (0x6F12#16).extractLsb' 12 4 = 0x6#4 ∧ (15 : RegIdx) < Config.nregs ∧
    Config.nregs ≤ (16 : RegIdx) := by decide
theorem witness_AddImmediateResult : (0x7E01#16).extractLsb' 12 4 = 0x7#4 ∧ (15 : RegIdx) < Config.nregs ∧
    Config.nregs ≤ (16 : RegIdx) := by decide

theorem witness_CopyRegisterResult : (0x8FF0#16).extractLsb' 12 4 = 0x8#4 ∧ (0x8FF0#16).extractLsb' 0 4 = 0x0#4 ∧
    (15 : RegIdx) < Config.nregs ∧ Config.nregs ≤ (16 : RegIdx) := by decide
theorem witness_OrResult : (0x8FF1#16).extractLsb' 12 4 = 0x8#4 ∧ (0x8FF1#16).extractLsb' 0 4 = 0x1#4 ∧
    (15 : RegIdx) < Config.nregs ∧ Config.nregs ≤ (16 : RegIdx) := by decide
theorem witness_AndResult : (0x8FF2#16).extractLsb' 12 4 = 0x8#4 ∧ (0x8FF2#16).extractLsb' 0 4 = 0x2#4 ∧
    (15 : RegIdx) < Config.nregs ∧ Config.nregs ≤ (16 : RegIdx) := by decide
theorem witness_XorResult : (0x8FF3#16).extractLsb' 12 4 = 0x8#4 ∧ (0x8FF3#16).extractLsb' 0 4 = 0x3#4 ∧
    (15 : RegIdx) < Config.nregs ∧ Config.nregs ≤ (16 : RegIdx) := by decide
theorem witness_AddRegisterResult : (0x8FF4#16).extractLsb' 12 4 = 0x8#4 ∧ (0x8FF4#16).extractLsb' 0 4 = 0x4#4 ∧
    (15 : RegIdx) < Config.nregs ∧ Config.nregs ≤ (16 : RegIdx) := by decide
theorem witness_SubtractResult : (0x8FF5#16).extractLsb' 12 4 = 0x8#4 ∧ (0x8FF5#16).extractLsb' 0 4 = 0x5#4 ∧
    (15 : RegIdx) < Config.nregs ∧ Config.nregs ≤ (16 : RegIdx) := by decide

theorem witness_TwoAddsDifferOnlyInCarry : (15 : RegIdx) < Config.nregs ∧ (0 : RegIdx) < Config.nregs := by decide

theorem witness_RegisterIndexFaultsInOrder :
    (Instr.or 16 17).regs.find? (fun r => decide (Config.nregs ≤ r)) = some 16 ∧
    (Instr.or 15 17).regs.find? (fun r => decide (Config.nregs ≤ r)) = some 17 ∧
    decode 0x8FF1#16 = .instr (.or 15 15) := by decide

theorem witness_ExecCompletes : (∀ r ∈ (Instr.sub 15 0).regs, r < Config.nregs) ∧ Instr.sub 15 0 ≠ .ret ∧
    ({ State.reset with stack := [0x0204] }).stack ≠ [] := by decide

theorem witness_ExecFrame : exec .cls busy = .next (advance { busy with display := Plane.off }) ∧
    exec (.ldImm 3 5) busy = .next (advance (setReg 3 5 busy)) ∧ Instr.dest (.ldImm 3 5) ≠ some 4 ∧
    Instr.writesCarry (.ldImm 3 5) = false ∧ Instr.usesStack (.ldImm 3 5) = false ∧ Instr.ldImm 3 5 ≠ .cls :=
  ⟨rfl, rfl, by decide, by decide, by decide, by decide⟩

theorem witness_OnlyNamedRegistersAreRead :
    (4 : RegIdx) ∉ (Instr.ldImm 3 5).reads ∧ (Instr.ldImm 3 5).dest ≠ some 4 ∧
    (3 : RegIdx) ∉ (Instr.ldImm 3 5).reads ∧ (Instr.ldImm 3 5).dest = some 3 := by decide

theorem witness_PcAdvanceTable : exec (.seImm 3 9) busy = .next (skip busy) ∧
    step State.reset = .fault (.unimplementedOpcode 0) :=
  ⟨rfl, rfl⟩

theorem witness_CallReturnRoundTrip : ∃ u : State, u.stack = State.reset.stack ++ [State.reset.pc + 2#16] :=
  ⟨{ State.reset with stack := [2] }, rfl⟩

theorem witness_StepRunsDecodedInstruction :
    (wordAt 4094 0x6A01).pc.toNat + 1 < 4096 ∧
    decode ((wordAt 4094 0x6A01).mem.read 4094 ++ (wordAt 4094 0x6A01).mem.read 4095) = .instr (.ldImm 10 1) ∧
    decode ((wordAt 4094 0xD005).mem.read 4094 ++ (wordAt 4094 0xD005).mem.read 4095) =
      .unimplementedOpcode 0xD005 ∧
    4096 ≤ ({ State.reset with pc := 4095 }).pc.toNat + 1 := by decide

theorem witness_FetchReadsTwoBytes : (wordAt 4094 0x6A01).pc.toNat ≤ 4094 ∧
    4095 ≤ ({ State.reset with pc := 4095 }).pc.toNat := by decide

theorem witness_UnimplementedWordFaults : step State.reset = .fault (.unimplementedOpcode 0x0000) ∧
    fetch State.reset = .word 0x0000 ∧ ∀ r ∈ opcodeTable, r.selects 0x0000 = false :=
  ⟨rfl, rfl, by decide⟩

theorem witness_SelfJumpChangesNothing :
    fetch (wordAt 0x20E 0x120E) = .word (encode (.jp (BitVec.ofNat 12 (wordAt 0x20E 0x120E).pc.toNat))) := by decide

theorem witness_DecodeFollowsOpcodeTable :
    (⟨"SUB", 0xF00F, 0x8005⟩ : OpcodeRow) ∈ opcodeTable ∧
    (⟨"SUB", 0xF00F, 0x8005⟩ : OpcodeRow).selects 0x8AB5 = true ∧
    ∀ r ∈ opcodeTable, r.selects 0x8AB6 = false := by decide

theorem witness_OpcodeRowsDisjoint :
    (⟨"CLS", 0xFFFF, 0x00E0⟩ : OpcodeRow) ∈ opcodeTable ∧
    (⟨"CLS", 0xFFFF, 0x00E0⟩ : OpcodeRow).selects 0x00E0 = true := by decide

theorem witness_DecodeEncodeRoundTrip : (Instr.sub 15 15).wf = true ∧ (Instr.jp 0xFFF).wf = true := by decide

theorem witness_EncodeDecodeRoundTrip : decode 0x8FF5#16 = .instr (.sub 15 15) := by decide

/-- A state with a program at 0x200 meets the invariant, and a step from it is a next state. -/
theorem witness_StepKeepsInvariant : (wordAt 0x200 0x2FFF).Inv ∧
    step (wordAt 0x200 0x2FFF) = .next { wordAt 0x200 0x2FFF with pc := 0xFFF, stack := [0x202] } := by
  refine ⟨⟨by decide, by simp [PcInRange, wordAt], by simp [StackInRange, wordAt], fun a ha => ?_⟩, rfl⟩
  simp only [Config.base] at ha
  exact memory_read_writeBytes_outside (.inl ha)

theorem witness_OperationsKeepInvariant : Block.Inv (some (wordAt 0x200 0x2FFF)) ∧ Block.Inv none := by
  refine ⟨fun s h => ?_, fun s h => ?_⟩
  · cases h
    exact witness_StepKeepsInvariant.1
  · cases h

theorem witness_CanonicalMemoryIsUnique : Memory.wf [(0, 1), (4095, 0xFF)] = true ∧
    Memory.wf [(1, 1), (0, 1)] = false ∧ Memory.wf [(1, 0)] = false ∧ Memory.wf [(4096, 1)] = false := by decide

theorem witness_LoadResult : busy.mem.wf = true ∧ (List.replicate 3584 (1 : Byte)).length ≤ 3584 ∧
    3584 < (List.replicate 3585 (1 : Byte)).length ∧ 1 < [(0x12 : Byte), 0x00].length :=
  ⟨by decide, by rw [List.length_replicate], by rw [List.length_replicate]; decide, by decide⟩

theorem witness_LoadThenStepRunsTheImage : busy.mem.wf = true ∧ decode (0x60#8 ++ 0x07#8) = .instr (.ldImm 0 7) ∧
    load [0x60, 0x07] busy =
      .next { busy with mem := [(0x200, 0x60), (0x201, 0x07), (0x203, 0xDD)], pc := 0x200 } :=
  ⟨by decide, by decide, rfl⟩

theorem witness_InitialisingLaws : busy.mem.wf = true ∧
    load [0x11] busy = .next { busy with mem := [(0x200, 0x11), (0x203, 0xDD)], pc := 0x200 } :=
  ⟨by decide, rfl⟩

theorem witness_StepFromAddressZeroFaults : ReservedClear State.reset := fun _ _ => rfl

theorem witness_DrawPixelsAndCollision :
    (63#8).toNat + (1#8).toNat ≤ 64 ∧ (31#8).toNat + (1#8).toNat ≤ 32 ∧ (64#8).toNat + (0#8).toNat ≤ 64 ∧
    inRect 63 31 1 1 63 31 = true ∧ inRect 63 31 1 1 62 31 = false := by decide

theorem witness_DrawBoundsAreStrict : 64 < (63#8).toNat + (2#8).toNat ∧ 32 < (32#8).toNat + (1#8).toNat ∧
    64 < (200#8).toNat + (100#8).toNat := by decide

theorem witness_DrawChangesOnlyTheDisplay :
    draw 63 31 1 1 State.reset = .next ({ State.reset with display := Plane.off.setPx 63 31 true }, false) := rfl

theorem witness_DrawTwiceRestores :
    draw 63 31 1 1 State.reset = .next ({ State.reset with display := Plane.off.setPx 63 31 true }, false) ∧
    ∀ i j, inRect 63 31 1 1 i j = true → State.reset.display.px i j = false :=
  ⟨rfl, fun i j _ => px_off i j⟩

theorem witness_NothingBeforePowerOn : HostOp.step ≠ .powerOn ∧ HostOp.load [] ≠ .powerOn := by decide

theorem witness_FaultsLeaveNoTrace : operate .step (some State.reset) = .fault (.unimplementedOpcode 0) ∧
    operate (.draw 63 31 2 1) (some State.reset) = .fault (.displayBoundsExceeded 63 31 2 1) :=
  ⟨rfl, rfl⟩

theorem witness_OperationFaultMatrix : operate .step (some State.reset) = .fault (.unimplementedOpcode 0) ∧
    operate (.draw 63 31 2 1) (some State.reset) = .fault (.displayBoundsExceeded 63 31 2 1) ∧
    operate (.load (List.replicate 3585 0)) (some busy) = .fault (.imageTooLarge 3585) := by
  refine ⟨rfl, rfl, ?_⟩
  rw [operate, operateOn, load, if_neg (by rw [List.length_replicate]; decide), List.length_replicate]
  rfl

/-- Each item of the state changes under some operation that succeeds. -/
theorem witness_WhoChangesWhat :
    (∃ t, operate (.load [0x12]) (some State.reset) = .next (t, .done) ∧ t.mem ≠ State.reset.mem) ∧
    (∃ t, operate (.draw 63 31 1 1) (some State.reset) = .next (t, .collision false) ∧
      t.display ≠ State.reset.display) ∧
    (∃ t, operate .step (some (wordAt 0x200 0x2FFF)) = .next (t, .done) ∧ t.stack ≠ []) ∧
    (∃ t, operate .step (some (aluAt 0x8334 3 0x90 3 0x90 false)) = .next (t, .done) ∧ t.cf ≠ false ∧
      t.v ≠ (aluAt 0x8334 3 0x90 3 0x90 false).v) :=
  ⟨⟨_, rfl, by decide⟩, ⟨_, rfl, by decide⟩, ⟨_, rfl, by decide⟩, ⟨_, rfl, by decide, by decide⟩⟩

end Sys2Proof.Tests
end

section
/-! PROOFS. The renderer and `CLS` (41_display): what the scan of the rectangle does, the two branches of `draw`, and
the obligations ClearScreenResult, DrawPixelsAndCollision and DrawBoundsAreStrict. -/

namespace Sys2Proof.Machine

/-! The scan of the rectangle. -/

/-- One row of the scan leaves every other row as it was. -/
theorem px_drawRow_of_ne {x y i j w : Nat} {acc : Plane × Bool} (hw : x + w ≤ 64) (hy : y < 32) (hj : j ≠ y) :
    (drawRow x y w acc).1.px i j = acc.1.px i j := by
  simp [px_drawRow hw hy, hj]

/-- The scan of a rectangle inside the plane inverts the pixels of the rectangle and no other. -/
theorem px_drawRows {x y i j w h : Nat} {acc : Plane × Bool} (hw : x + w ≤ 64) (hh : y + h ≤ 32) :
    (drawRows x y w h acc).1.px i j =
      (acc.1.px i j !=
        (decide (x ≤ i) && decide (i < x + w) && decide (y ≤ j) && decide (j < y + h))) := by
  induction h generalizing y acc with
  | zero =>
    have hout : (decide (y ≤ j) && decide (j < y + 0)) = false := by simp
    rw [Bool.and_assoc, hout]
    simp [drawRows]
  | succ h ih =>
    rw [drawRows, ih (by omega)]
    by_cases hj : j = y
    · subst hj
      simp [px_drawRow hw (show j < 32 by omega)]
    · have hle : (y + 1 ≤ j) = (y ≤ j) := propext (by omega)
      have hlt : (j < y + 1 + h) = (j < y + (h + 1)) := propext (by omega)
      rw [px_drawRow_of_ne hw (by omega) hj]
      simp only [hle, hlt]

/-- The collision bit of the scan: it was set before, or a pixel of the rectangle was on before the scan. A later row
is tested after the rows above it are inverted, which leaves its pixels as they were. -/
theorem collision_drawRows {x y w h : Nat} {acc : Plane × Bool} (hw : x + w ≤ 64) (hh : y + h ≤ 32) :
    (drawRows x y w h acc).2 = true ↔
      acc.2 = true ∨
        ∃ i j, (x ≤ i ∧ i < x + w ∧ y ≤ j ∧ j < y + h) ∧ acc.1.px i j = true := by
  induction h generalizing y acc with
  | zero =>
    rw [drawRows]
    constructor
    · exact .inl
    · rintro (hc | ⟨i, j, hr, -⟩)
      · exact hc
      · omega
  | succ h ih =>
    have hy : y < 32 := by omega
    rw [drawRows, ih (by omega), collision_drawRow hw hy]
    constructor
    · rintro ((hc | ⟨i, hi, hi', hon⟩) | ⟨i, j, hr, hon⟩)
      · exact .inl hc
      · exact .inr ⟨i, y, by omega, hon⟩
      · rw [px_drawRow_of_ne hw hy (by omega)] at hon
        exact .inr ⟨i, j, by omega, hon⟩
    · rintro (hc | ⟨i, j, hr, hon⟩)
      · exact .inl (.inl hc)
      · by_cases hj : j = y
        · subst hj
          exact .inl (.inr ⟨i, by omega, by omega, hon⟩)
        · refine .inr ⟨i, j, by omega, ?_⟩
          rw [px_drawRow_of_ne hw hy hj]
          exact hon

/-! The two branches of `draw`. -/

theorem inRect_iff {x y w h : Byte} {i j : Nat} :
    inRect x y w h i j = true ↔
      x.toNat ≤ i ∧ i < x.toNat + w.toNat ∧ y.toNat ≤ j ∧ j < y.toNat + h.toNat := by
  simp [inRect, and_assoc]

theorem rectFits_iff {x y w h : Byte} :
    rectFits x y w h = true ↔ x.toNat + w.toNat ≤ 64 ∧ y.toNat + h.toNat ≤ 32 := by
  simp [rectFits]

/-- Inside the bounds `draw` answers with the scan of the rectangle (41_display R122). -/
theorem draw_of_fits {x y w h : Byte} (s : State) (hx : x.toNat + w.toNat ≤ 64) (hy : y.toNat + h.toNat ≤ 32) :
    draw x y w h s =
      .next ({ s with display := (drawRows x.toNat y.toNat w.toNat h.toNat (s.display, false)).1 },
        (drawRows x.toNat y.toNat w.toNat h.toNat (s.display, false)).2) :=
  if_pos (rectFits_iff.2 ⟨hx, hy⟩)

/-- Outside the bounds `draw` faults with its operands (41_display R123). -/
theorem draw_of_exceeds {x y w h : Byte} (s : State) (he : 64 < x.toNat + w.toNat ∨ 32 < y.toNat + h.toNat) :
    draw x y w h s = .fault (.displayBoundsExceeded x y w h) := by
  refine if_neg fun hf => ?_
  obtain ⟨hx, hy⟩ := rectFits_iff.1 hf
  omega

/-- An operation that faults leaves the block as it was (60_exceptions R209). -/
theorem after_of_fault {b : Block} {op : HostOp} {f : Fault} (hf : operate op b = .fault f) : b.after op = b := by
  rw [Block.after, hf]

/-- On a block that is powered on, the operation `Draw` is `draw` with its collision bit as the output. -/
theorem operate_draw (x y w h : Byte) (s : State) :
    operate (.draw x y w h) (some s) = withCollision (draw x y w h s) := rfl

/-! The obligations. -/

/-- Settles O46: `px_drawRows` and `collision_drawRows` on the operands of `Draw`, from the bit 0. -/
theorem drawPixelsAndCollision : Obligations.DrawPixelsAndCollision := by
  intro x y w h s hx hy
  refine ⟨_, _, draw_of_fits s hx hy, fun i j _ _ => ?_, ?_⟩
  · have hpx : (drawRows x.toNat y.toNat w.toNat h.toNat (s.display, false)).1.px i j =
        (s.display.px i j != inRect x y w h i j) := px_drawRows hx hy
    cases hr : inRect x y w h i j <;> simp [hpx, hr]
  · simp [collision_drawRows hx hy, inRect_iff]

/-- Settles O1: the plane with every pixel off is the next display. -/
theorem clearScreenResult : Obligations.ClearScreenResult :=
  ⟨by decide, fun _ => ⟨Plane.off, fun x y _ _ => px_off x y, rfl⟩⟩

/-- Settles O47: the two branches of `draw` exclude each other, and a fault leaves the block as it was. -/
theorem drawBoundsAreStrict : Obligations.DrawBoundsAreStrict := by
  refine fun x y w h s => ⟨⟨draw_of_exceeds s, fun hf => ?_⟩, fun he => ?_⟩
  · by_contra hin
    rw [draw_of_fits s (by omega) (by omega)] at hf
    cases hf
  · have hfault : operate (.draw x y w h) (some s) = .fault (.displayBoundsExceeded x y w h) := by
      rw [operate_draw, draw_of_exceeds s he, withCollision]
    exact after_of_fault hfault

end Sys2Proof.Machine
end

section
/-! PROOFS. The control flow of `RET`, `JP` and the two skips on an immediate (42_control_flow): the words of their
families, the out-of-range register index, the program counter after a skip, and the obligations ReturnResult,
JumpResult, SkipEqualImmediateResult and SkipNotEqualImmediateResult. -/

namespace Sys2Proof.Machine

/-! The words (30_encoding R74). -/

/-- Family 1 is `JP`. -/
theorem decode_of_family_1 {w : Word} (hw : family w = 0x1#4) : decode w = .instr (.jp (fieldNNN w)) := by
  simp [decode, hw]

/-- Family 3 is `SE Vx, nn`. -/
theorem decode_of_family_3 {w : Word} (hw : family w = 0x3#4) :
    decode w = .instr (.seImm (fieldX w) (fieldNN w)) := by
  simp [decode, hw]

/-- Family 4 is `SNE Vx, nn`. -/
theorem decode_of_family_4 {w : Word} (hw : family w = 0x4#4) :
    decode w = .instr (.sneImm (fieldX w) (fieldNN w)) := by
  simp [decode, hw]

/-! The dispatch (40_fetch_decode_dispatch R102). -/

theorem exec_ret (s : State) : exec .ret s = pop s fun v t => .next (jumpTo v t) := rfl

theorem exec_jp (nnn : Addr) (s : State) : exec (.jp nnn) s = .next (jumpTo (target nnn) s) := rfl

theorem exec_seImm (x : RegIdx) (nn : Byte) (s : State) :
    exec (.seImm x nn) s = guardRegs [x] (skipIf (readReg s x == nn) s) := rfl

theorem exec_sneImm (x : RegIdx) (nn : Byte) (s : State) :
    exec (.sneImm x nn) s = guardRegs [x] (skipIf (readReg s x != nn) s) := rfl

/-! The shared operations. -/

/-- One register out of range: the guard faults with it (10_state R22). -/
theorem guardRegs_one_fault {x : RegIdx} {o : Outcome} (hx : Config.nregs ≤ x) :
    guardRegs [x] o = .fault (.registerIndexOutOfRange x) := by
  obtain ⟨-, hlt⟩ | ⟨r, hr, -, he⟩ := guardRegs_cases [x] o
  · exact absurd (hlt x (List.mem_singleton_self x)) (Nat.not_lt.2 hx)
  · rw [he, List.mem_singleton.1 hr]

/-- The two slots of a skip are one sum of 4. -/
theorem skip_eq (s : State) : skip s = { s with pc := s.pc + 4#16 } := by
  rw [skip, BitVec.add_assoc]
  rfl

/-- A skip changes `pc` alone, by 4 when its condition holds and by 2 when it does not (10_state R25). -/
theorem skipIf_of_iff {c : Bool} {p : Prop} [Decidable p] (hc : c = true ↔ p) (s : State) :
    skipIf c s = .next { s with pc := if p then s.pc + 4#16 else s.pc + 2#16 } := by
  rw [skipIf_eq, skip_eq, advance]
  by_cases hp : p <;> simp [hc, hp]

/-- A `Step` that faults leaves the block as it was (60_exceptions R209). -/
theorem after_step_of_fault {s : State} {f : Fault} (hf : step s = .fault f) :
    Block.after (some s) .step = some s := by
  have hop : operate .step (some s) = .fault f := by
    rw [operate, operateOn, hf, quiet]
  exact after_of_fault hop

/-! The obligations. -/

/-- Settles O2: the two cases of `pop`, and a `Step` that faults leaves the block as it was. -/
theorem returnResult : Obligations.ReturnResult := by
  refine ⟨by decide, fun s st v hst => ?_, fun s hs => ?_, fun s hf => after_step_of_fault hf⟩
  · rw [exec_ret, pop_append hst, jumpTo]
  · rw [exec_ret, pop_empty hs]

/-- Settles O3: the one outcome of `JP` is a jump to its target. -/
theorem jumpResult : Obligations.JumpResult :=
  ⟨fun _ hw => decode_of_family_1 hw, fun nnn s => by rw [exec_jp, jumpTo, target]⟩

/-- Settles O5: behind the guard stands a skip whose condition is that `V[x]` equals the immediate. -/
theorem skipEqualImmediateResult : Obligations.SkipEqualImmediateResult := by
  refine ⟨fun w hw => decode_of_family_3 hw, fun x hx nn s => ?_, fun x nn s hx => ?_⟩
  · rw [exec_seImm, guardRegs_one hx, readReg_eq hx, skipIf_of_iff beq_iff_eq]
  · rw [exec_seImm, guardRegs_one_fault hx]

/-- Settles O6: behind the guard stands a skip whose condition is that `V[x]` differs from the immediate. -/
theorem skipNotEqualImmediateResult : Obligations.SkipNotEqualImmediateResult := by
  refine ⟨fun w hw => decode_of_family_4 hw, fun x hx nn s => ?_, fun x nn s hx => ?_⟩
  · rw [exec_sneImm, guardRegs_one hx, readReg_eq hx, skipIf_of_iff bne_iff_ne]
  · rw [exec_sneImm, guardRegs_one_fault hx]

end Sys2Proof.Machine
end

section
/-! PROOFS. The register-immediate family (43_immediate) and its comparison with `ADD Vx, Vy`: what a write to a
register in range is, that the carry-tracked add does not read `CF`, and the obligations LoadImmediateResult and
TwoAddsDifferOnlyInCarry. -/

namespace Sys2Proof.Machine

/-! The word (30_encoding R74). -/

/-- Family 6 is `LD Vx, nn`. -/
theorem decode_of_family_6 {w : Word} (hw : family w = 0x6#4) :
    decode w = .instr (.ldImm (fieldX w) (fieldNN w)) := by
  simp [decode, hw]

/-! The dispatch (40_fetch_decode_dispatch R102). -/

theorem exec_ldImm (x : RegIdx) (nn : Byte) (s : State) :
    exec (.ldImm x nn) s = guardRegs [x] (.next (advance (setReg x nn s))) := rfl

theorem exec_addImm (x : RegIdx) (nn : Byte) (s : State) :
    exec (.addImm x nn) s = guardRegs [x] (.next (advance (setReg x (addResult (readReg s x) nn) s))) := rfl

theorem exec_addReg (x y : RegIdx) (s : State) :
    exec (.addReg x y) s = aluFlagged addResult addCarry x y s := rfl

/-! The shared operations. -/

/-- A write to a register in range and the advance: that element and `pc` change, and nothing else. -/
theorem advance_setReg_of_lt {i : RegIdx} (hi : i < Config.nregs) (b : Byte) (s : State) :
    advance (setReg i b s) = { s with v := s.v.set i b, pc := s.pc + 2#16 } := by
  have hv : s.v.setIfInBounds i b = s.v.set i b :=
    Vector.ext fun j hj => by rw [Vector.getElem_setIfInBounds hj, Vector.getElem_set hi hj]
  simp [advance, setReg, hv]

/-- The flag-writing form reads its registers and not `CF`, so any prior `CF` gives the same outcome (44_alu R177). -/
theorem aluFlagged_cf (f : Byte → Byte → Byte) (flag : Byte → Byte → Bool) (x y : RegIdx) (s : State) (b : Bool) :
    aluFlagged f flag x y { s with cf := b } = aluFlagged f flag x y s := rfl

/-! The obligations. -/

/-- Settles O8: behind the guard stands one write to `V[x]`, then the advance. -/
theorem loadImmediateResult : Obligations.LoadImmediateResult := by
  refine ⟨fun w hw => decode_of_family_6 hw, fun x hx nn s => ?_, fun x nn s hx => ?_⟩
  · rw [exec_ldImm, guardRegs_one hx, advance_setReg_of_lt hx]
  · rw [exec_ldImm, guardRegs_one_fault hx]

/-- Settles O16: `t` is the outcome of the immediate add, and the carry-tracked add differs from it by the write of
its carry, which is computed from the two operands alone. -/
theorem twoAddsDifferOnlyInCarry : Obligations.TwoAddsDifferOnlyInCarry := by
  intro x y hx hy s
  have hreg : exec (.addReg x y) s =
      .next { advance (setReg x (addResult (readReg s x) s.v[y]) s) with cf := addCarry (readReg s x) s.v[y] } := by
    rw [exec_addReg, aluFlagged_next hx hy, readReg_eq hy, advance, advance]
  refine ⟨advance (setReg x (addResult (readReg s x) s.v[y]) s), ?_, ?_, _, hreg, fun b => ?_⟩
  · rw [exec_addImm, guardRegs_one hx]
  · rw [advance_cf, setReg_cf]
  · rw [exec_addReg, aluFlagged_cf, ← exec_addReg, hreg]

end Sys2Proof.Machine
end

section
/-! PROOFS. The four flag-neutral operations of the register-register family (44_alu R171 to R174): the words of family
8, the two faults of a pair of register indexes, the one outcome of the flag-neutral form, and the obligations
CopyRegisterResult, OrResult, AndResult and XorResult. -/

namespace Sys2Proof.Machine

/-! The words (30_encoding R79). -/

/-- Family 8 is decoded by its low nibble. -/
theorem decode_of_family_8 {w : Word} (hw : family w = 0x8#4) : decode w = decodeFamily8 w := by
  simp [decode, hw]

/-- In family 8 the low nibble 0 is `LD Vx, Vy`. -/
theorem decode_of_family_8_of_0 {w : Word} (hw : family w = 0x8#4) (hn : fieldN w = 0x0#4) :
    decode w = .instr (.ldReg (fieldX w) (fieldY w)) := by
  simp [decode_of_family_8 hw, decodeFamily8, hn]

/-- In family 8 the low nibble 1 is `OR Vx, Vy`. -/
theorem decode_of_family_8_of_1 {w : Word} (hw : family w = 0x8#4) (hn : fieldN w = 0x1#4) :
    decode w = .instr (.or (fieldX w) (fieldY w)) := by
  simp [decode_of_family_8 hw, decodeFamily8, hn]

/-- In family 8 the low nibble 2 is `AND Vx, Vy`. -/
theorem decode_of_family_8_of_2 {w : Word} (hw : family w = 0x8#4) (hn : fieldN w = 0x2#4) :
    decode w = .instr (.and (fieldX w) (fieldY w)) := by
  simp [decode_of_family_8 hw, decodeFamily8, hn]

/-- In family 8 the low nibble 3 is `XOR Vx, Vy`. -/
theorem decode_of_family_8_of_3 {w : Word} (hw : family w = 0x8#4) (hn : fieldN w = 0x3#4) :
    decode w = .instr (.xor (fieldX w) (fieldY w)) := by
  simp [decode_of_family_8 hw, decodeFamily8, hn]

/-! The dispatch (40_fetch_decode_dispatch R102). -/

theorem exec_ldReg (x y : RegIdx) (s : State) : exec (.ldReg x y) s = aluNeutral (fun _ b => b) x y s := rfl

theorem exec_or (x y : RegIdx) (s : State) : exec (.or x y) s = aluNeutral (fun a b => a ||| b) x y s := rfl

theorem exec_and (x y : RegIdx) (s : State) : exec (.and x y) s = aluNeutral (fun a b => a &&& b) x y s := rfl

theorem exec_xor (x y : RegIdx) (s : State) : exec (.xor x y) s = aluNeutral (fun a b => a ^^^ b) x y s := rfl

/-! The shared operations. -/

/-- The first index of the list that is out of range is the fault the guard raises (10_state R22). -/
theorem guardRegs_of_find? {rs : List RegIdx} {r : RegIdx}
    (hr : rs.find? (fun r => decide (Config.nregs ≤ r)) = some r) (o : Outcome) :
    guardRegs rs o = .fault (.registerIndexOutOfRange r) := by
  simp only [guardRegs, hr, raise]

/-- The first of two registers out of range is the fault, whatever the second is (decision D19). -/
theorem guardRegs_two_fault_left {x : RegIdx} (hx : Config.nregs ≤ x) (y : RegIdx) (o : Outcome) :
    guardRegs [x, y] o = .fault (.registerIndexOutOfRange x) :=
  guardRegs_of_find? (List.find?_cons_of_pos (decide_eq_true hx)) o

/-- The second of two registers is the fault when the first is in range. -/
theorem guardRegs_two_fault_right {x y : RegIdx} (hx : x < Config.nregs) (hy : Config.nregs ≤ y) (o : Outcome) :
    guardRegs [x, y] o = .fault (.registerIndexOutOfRange y) := by
  refine guardRegs_of_find? ?_ o
  rw [List.find?_cons_of_neg (by simpa using hx)]
  exact List.find?_cons_of_pos (decide_eq_true hy)

section
variable (f : Byte → Byte → Byte) {x y : RegIdx} (s : State)

/-- With both registers in range the flag-neutral form changes `V[x]` and `pc`, and nothing else (44_alu R170). -/
theorem aluNeutral_of_lt (hx : x < Config.nregs) (hy : y < Config.nregs) :
    aluNeutral f x y s = .next { s with v := s.v.set x (f s.v[x] s.v[y]), pc := s.pc + 2#16 } := by
  rw [aluNeutral_next hx hy, advance_setReg_of_lt hx, readReg_eq hx, readReg_eq hy]

theorem aluNeutral_fault_left (hx : Config.nregs ≤ x) (y : RegIdx) :
    aluNeutral f x y s = .fault (.registerIndexOutOfRange x) :=
  guardRegs_two_fault_left hx y _

theorem aluNeutral_fault_right (hx : x < Config.nregs) (hy : Config.nregs ≤ y) :
    aluNeutral f x y s = .fault (.registerIndexOutOfRange y) :=
  guardRegs_two_fault_right hx hy _

end

/-- An operation of the flag-neutral form whose function acts bit by bit as `g` writes `g` of the bits of `V[x]` and
`V[y]`, or faults with the first index out of range (44_alu R172 to R174). -/
theorem bitwise_outcomes {op : RegIdx → RegIdx → Instr} {f : Byte → Byte → Byte} (g : Bool → Bool → Bool)
    (hop : ∀ x y s, exec (op x y) s = aluNeutral f x y s)
    (hbits : ∀ a b k, (f a b).getLsbD k = g (a.getLsbD k) (b.getLsbD k)) :
    (∀ (x y : RegIdx) (hx : x < Config.nregs) (hy : y < Config.nregs) (s : State), ∃ r : Byte,
      (∀ k, k < 8 → r.getLsbD k = g (s.v[x].getLsbD k) (s.v[y].getLsbD k)) ∧
      exec (op x y) s = .next { s with v := s.v.set x r, pc := s.pc + 2#16 }) ∧
    (∀ (x y : RegIdx) (s : State), Config.nregs ≤ x → exec (op x y) s = .fault (.registerIndexOutOfRange x)) ∧
    (∀ (x y : RegIdx) (s : State), x < Config.nregs → Config.nregs ≤ y →
      exec (op x y) s = .fault (.registerIndexOutOfRange y)) := by
  refine ⟨fun x y hx hy s => ⟨f s.v[x] s.v[y], fun k _ => hbits _ _ k, ?_⟩, fun x y s hx => ?_,
    fun x y s hx hy => ?_⟩
  · rw [hop, aluNeutral_of_lt f s hx hy]
  · rw [hop, aluNeutral_fault_left f s hx]
  · rw [hop, aluNeutral_fault_right f s hx hy]

/-! The obligations. -/

/-- Settles O10: the function of the copy is its second operand. -/
theorem copyRegisterResult : Obligations.CopyRegisterResult := by
  refine ⟨fun w hw hn => decode_of_family_8_of_0 hw hn, fun x y hx hy s => ?_, fun x y s hx => ?_,
    fun x y s hx hy => ?_⟩
  · rw [exec_ldReg, aluNeutral_of_lt _ s hx hy]
  · rw [exec_ldReg, aluNeutral_fault_left _ s hx]
  · rw [exec_ldReg, aluNeutral_fault_right _ s hx hy]

/-- Settles O11: `OR` is the flag-neutral form at `|||`, whose bits are the `||` of the operands' bits. -/
theorem orResult : Obligations.OrResult :=
  ⟨fun _ hw hn => decode_of_family_8_of_1 hw hn, bitwise_outcomes (· || ·) exec_or fun _ _ _ => BitVec.getLsbD_or⟩

/-- Settles O12: `AND` is the flag-neutral form at `&&&`, whose bits are the `&&` of the operands' bits. -/
theorem andResult : Obligations.AndResult :=
  ⟨fun _ hw hn => decode_of_family_8_of_2 hw hn, bitwise_outcomes (· && ·) exec_and fun _ _ _ => BitVec.getLsbD_and⟩

/-- Settles O13: `XOR` is the flag-neutral form at `^^^`, whose bits are the `!=` of the operands' bits. -/
theorem xorResult : Obligations.XorResult :=
  ⟨fun _ hw hn => decode_of_family_8_of_3 hw hn, bitwise_outcomes (· != ·) exec_xor fun _ _ _ => BitVec.getLsbD_xor⟩

end Sys2Proof.Machine
end

section
/-! PROOFS. The fault `UnimplementedOpcode` (60_exceptions R202): the words the rows of the opcode table select, read by
fields; that `Decode` fails on exactly the words outside the table; that no instruction's execution raises this fault;
and the obligation UnimplementedWordFaults. -/

namespace Sys2Proof

/-! A masked word is determined by the fields under the mask (30_encoding R72). -/

/-- Every word is the format A word of its fields. -/
theorem formatA_fields (w : Word) : formatA (family w) (fieldNNN w) = w :=
  (BitVec.extractLsb'_append_extractLsb'_eq_extractLsb' rfl).trans BitVec.extractLsb'_eq_self

/-- Every word is the format RR word of its fields. -/
theorem formatRR_fields (w : Word) : formatRR (family w) (fieldX w) (fieldY w) (fieldN w) = w := by
  have hnn : w.extractLsb' 4 4 ++ w.extractLsb' 0 4 = w.extractLsb' 0 8 :=
    BitVec.extractLsb'_append_extractLsb'_eq_extractLsb' rfl
  have hnnn : w.extractLsb' 8 4 ++ w.extractLsb' 0 8 = fieldNNN w :=
    BitVec.extractLsb'_append_extractLsb'_eq_extractLsb' rfl
  simp only [formatRR, fieldX, fieldY, fieldN, BitVec.ofNat_toNat, BitVec.setWidth_eq]
  rw [hnn, hnnn]
  exact formatA_fields w

/-- The mask of a family alone keeps the family. -/
theorem and_F000 (w : Word) : w &&& 0xF000#16 = family w ++ 0#12 := by
  rw [← Laws.formatA_masked (family w) (fieldNNN w), formatA_fields]

/-- The mask of family and low nibble keeps these two. -/
theorem and_F00F (w : Word) : w &&& 0xF00F#16 = family w ++ (0#8 ++ fieldN w) := by
  rw [← Laws.formatRR_masked (family w) (fieldX w) (fieldY w) (fieldN w), formatRR_fields]

/-- A pattern under the mask of a family compares the families. -/
theorem and_F000_eq_iff {w p : Word} (hp : p &&& 0xF000#16 = p) :
    w &&& 0xF000#16 = p ↔ family w = p.extractLsb' 12 4 := by
  conv_lhs => rw [← hp, and_F000, and_F000, BitVec.append_left_inj]
  rfl

/-- A pattern under the mask of family and low nibble compares these two fields. -/
theorem and_F00F_eq_iff {w p : Word} (hp : p &&& 0xF00F#16 = p) :
    w &&& 0xF00F#16 = p ↔ family w = p.extractLsb' 12 4 ∧ fieldN w = p.extractLsb' 0 4 := by
  constructor
  · rintro rfl
    rw [BitVec.extractLsb'_and, BitVec.extractLsb'_and]
    exact ⟨(BitVec.and_allOnes ..).symm, (BitVec.and_allOnes ..).symm⟩
  · rintro ⟨hf, hn⟩
    rw [← hp, and_F00F, and_F00F, hf, hn]
    rfl

/-- A pattern under the full mask is the whole word, whose family is then the pattern's. -/
theorem and_FFFF_eq_iff (w p : Word) : w &&& 0xFFFF#16 = p ↔ family w = p.extractLsb' 12 4 ∧ w = p := by
  rw [show (0xFFFF#16 : Word) = BitVec.allOnes 16 from rfl, BitVec.and_allOnes, iff_and_self]
  rintro rfl
  rfl

/-- The table by fields: what a word of each family must not be for no row to select it (30_encoding R77 to R79). -/
theorem no_row_selects_iff (w : Word) :
    (∀ r ∈ opcodeTable, r.selects w = false) ↔
      (family w = 0x0#4 → w ≠ 0x00E0#16 ∧ w ≠ 0x00EE#16) ∧
      family w ∉ [0x1#4, 0x2#4, 0x3#4, 0x4#4] ∧
      (family w = 0x5#4 → fieldN w ≠ 0x0#4) ∧
      family w ∉ [0x6#4, 0x7#4] ∧
      (family w = 0x8#4 → fieldN w ∉ [0x0#4, 0x1#4, 0x2#4, 0x3#4, 0x4#4, 0x5#4]) := by
  simp [opcodeTable, OpcodeRow.selects, and_F000_eq_iff, and_F00F_eq_iff, and_FFFF_eq_iff, imp_and, and_assoc]

/-! The decoder (30_encoding R74, R80). -/

/-- In family 0 `Decode` fails on every word but two. -/
theorem decodeFamily0_unimplementedOpcode_iff {w u : Word} :
    decodeFamily0 w = .unimplementedOpcode u ↔ w = u ∧ w ≠ 0x00E0#16 ∧ w ≠ 0x00EE#16 := by
  unfold decodeFamily0
  split_ifs <;> simp [*]

/-- In family 5 `Decode` fails on every low nibble but 0. -/
theorem decodeFamily5_unimplementedOpcode_iff {w u : Word} :
    decodeFamily5 w = .unimplementedOpcode u ↔ w = u ∧ fieldN w ≠ 0x0#4 := by
  unfold decodeFamily5
  split_ifs <;> simp [*]

/-- In family 8 `Decode` fails on every low nibble but six. -/
theorem decodeFamily8_unimplementedOpcode_iff {w u : Word} :
    decodeFamily8 w = .unimplementedOpcode u ↔
      w = u ∧ fieldN w ∉ [0x0#4, 0x1#4, 0x2#4, 0x3#4, 0x4#4, 0x5#4] := by
  unfold decodeFamily8
  split <;> simp_all

/-- `Decode` fails with the word it was given, and exactly on a word that selects no row (30_encoding R80). -/
theorem decode_unimplementedOpcode_iff {w u : Word} :
    decode w = .unimplementedOpcode u ↔ w = u ∧ ∀ r ∈ opcodeTable, r.selects w = false := by
  rw [no_row_selects_iff]
  unfold decode
  split
  case h_1 h0 => simp [h0, decodeFamily0_unimplementedOpcode_iff]
  case h_6 h5 => simp [h5, decodeFamily5_unimplementedOpcode_iff]
  case h_9 h8 => simp [h8, decodeFamily8_unimplementedOpcode_iff]
  all_goals simp_all

end Sys2Proof

namespace Sys2Proof.Machine

/-! The execution (40_fetch_decode_dispatch R102). -/

/-- Every instruction but `RET` is the range check of its registers and then a next state. -/
theorem exec_eq_guardRegs {i : Instr} (hi : i ≠ .ret) (s : State) :
    ∃ t, exec i s = guardRegs i.regs (.next t) := by
  cases i with
  | ret => exact absurd rfl hi
  | _ => exact ⟨_, rfl⟩

/-- The faults of an instruction's execution: an index out of range, or `RET` on an empty stack. -/
theorem exec_fault_cases {i : Instr} {s : State} {f : Fault} (h : exec i s = .fault f) :
    (∃ r ∈ i.regs, Config.nregs ≤ r ∧ f = .registerIndexOutOfRange r) ∨
    (i = .ret ∧ s.stack = [] ∧ f = .stackUnderflow) := by
  by_cases hi : i = .ret
  · subst hi
    obtain hst | ⟨st, v, hst⟩ := stack_cases s.stack
    · rw [exec_ret, pop_empty hst] at h
      cases h
      exact .inr ⟨rfl, hst, rfl⟩
    · rw [exec_ret, pop_append hst] at h
      cases h
  · obtain ⟨t, ht⟩ := exec_eq_guardRegs hi s
    rw [ht] at h
    obtain ⟨hg, -⟩ | ⟨r, hr, hle, hg⟩ := guardRegs_cases i.regs (.next t)
    · cases hg.symm.trans h
    · cases hg.symm.trans h
      exact .inl ⟨r, hr, hle, rfl⟩

/-! The step. -/

/-- A `Step` raises `UnimplementedOpcode` in one way: `Decode` fails on the fetched word. -/
theorem step_unimplementedOpcode_iff {s : State} {u : Word} :
    step s = .fault (.unimplementedOpcode u) ↔
      ∃ w, fetch s = .word w ∧ decode w = .unimplementedOpcode u := by
  obtain ⟨w, i, hf, hd, hs⟩ | ⟨w, u', hf, hd, hs⟩ | ⟨a, hf, hs⟩ := step_cases s
  · have hne : exec i s ≠ .fault (.unimplementedOpcode u) := fun h => by
      obtain ⟨r, -, -, hr⟩ | ⟨-, -, hr⟩ := exec_fault_cases h <;> cases hr
    simp [hf, hd, hs, hne]
  · simp [hf, hd, hs]
  · simp [hf, hs]

/-! The obligation. -/

/-- Settles O27: `Step` raises the fault where `Decode` fails, and `Decode` fails on the words outside the table. -/
theorem unimplementedWordFaults : Obligations.UnimplementedWordFaults := by
  intro s w
  rw [step_unimplementedOpcode_iff]
  simp only [decode_unimplementedOpcode_iff]
  constructor
  · rintro ⟨_, hf, rfl, hrows⟩
    exact ⟨hf, hrows⟩
  · rintro ⟨hf, hrows⟩
    exact ⟨w, hf, rfl, hrows⟩

end Sys2Proof.Machine
end

section
/-! PROOFS. The encoder against the decoder (30_encoding R72, R74, R76): the fields of a formatted word, the two round
trips, the rows of the opcode table, the fields by arithmetic, and the obligations DecodeEncodeRoundTrip,
EncodeDecodeRoundTrip, OpcodeRowsDisjoint, DecodeFollowsOpcodeTable, DecodeReadsTheFields and SampleWordsDecode. -/

namespace Sys2Proof.Machine

/-! The words of the families that no lemma above reads (30_encoding R74, R78, R79). -/

/-- Family 2 is `CALL`. -/
theorem decode_of_family_2 {w : Word} (hw : family w = 0x2#4) : decode w = .instr (.call (fieldNNN w)) := by
  simp [decode, hw]

/-- Family 5 with the low nibble 0 is `SE Vx, Vy`. -/
theorem decode_of_family_5_of_0 {w : Word} (hw : family w = 0x5#4) (hn : fieldN w = 0x0#4) :
    decode w = .instr (.seReg (fieldX w) (fieldY w)) := by
  simp [decode, decodeFamily5, hw, hn]

/-- Family 7 is `ADD Vx, nn`. -/
theorem decode_of_family_7 {w : Word} (hw : family w = 0x7#4) :
    decode w = .instr (.addImm (fieldX w) (fieldNN w)) := by
  simp [decode, hw]

/-- In family 8 the low nibble 4 is `ADD Vx, Vy`. -/
theorem decode_of_family_8_of_4 {w : Word} (hw : family w = 0x8#4) (hn : fieldN w = 0x4#4) :
    decode w = .instr (.addReg (fieldX w) (fieldY w)) := by
  simp [decode_of_family_8 hw, decodeFamily8, hn]

/-- In family 8 the low nibble 5 is `SUB Vx, Vy`. -/
theorem decode_of_family_8_of_5 {w : Word} (hw : family w = 0x8#4) (hn : fieldN w = 0x5#4) :
    decode w = .instr (.sub (fieldX w) (fieldY w)) := by
  simp [decode_of_family_8 hw, decodeFamily8, hn]

end Sys2Proof.Machine

namespace Sys2Proof

open Machine

/-! The fields of a formatted word (30_encoding R71, R72). -/

section
variable (f : Nibble) (nnn : Addr) (x y : RegIdx) (nn : Byte) (n : Nibble)

@[simp] theorem family_formatA : family (formatA f nnn) = f := BitVec.extractLsb'_append_eq_left

@[simp] theorem fieldNNN_formatA : fieldNNN (formatA f nnn) = nnn := BitVec.extractLsb'_append_eq_right

@[simp] theorem family_formatRI : family (formatRI f x nn) = f := BitVec.extractLsb'_append_eq_left

@[simp] theorem fieldNN_formatRI : fieldNN (formatRI f x nn) = nn := by
  rw [fieldNN, formatRI, BitVec.extractLsb'_append_eq_of_add_le (by decide), BitVec.extractLsb'_append_eq_right]

@[simp] theorem family_formatRR : family (formatRR f x y n) = f := BitVec.extractLsb'_append_eq_left

@[simp] theorem fieldN_formatRR : fieldN (formatRR f x y n) = n := by
  rw [fieldN, formatRR, BitVec.extractLsb'_append_eq_of_add_le (by decide),
    BitVec.extractLsb'_append_eq_of_add_le (by decide), BitVec.extractLsb'_append_eq_right]

variable {x y}

/-- An index that fits is its own field of four bits. -/
theorem toNat_index {r : RegIdx} (hr : r < 16) : (BitVec.ofNat 4 r).toNat = r := Nat.mod_eq_of_lt hr

theorem fieldX_formatRI (hx : x < 16) : fieldX (formatRI f x nn) = x := by
  rw [fieldX, formatRI, BitVec.extractLsb'_append_eq_of_add_le (by decide), BitVec.extractLsb'_append_eq_left,
    toNat_index hx]

theorem fieldX_formatRR (hx : x < 16) : fieldX (formatRR f x y n) = x := by
  rw [fieldX, formatRR, BitVec.extractLsb'_append_eq_of_add_le (by decide), BitVec.extractLsb'_append_eq_left,
    toNat_index hx]

theorem fieldY_formatRR (hy : y < 16) : fieldY (formatRR f x y n) = y := by
  rw [fieldY, formatRR, BitVec.extractLsb'_append_eq_of_add_le (by decide),
    BitVec.extractLsb'_append_eq_of_add_le (by decide), BitVec.extractLsb'_append_eq_left, toNat_index hy]

end

/-- Every word is the format RI word of its fields. -/
theorem formatRI_fields (w : Word) : formatRI (family w) (fieldX w) (fieldNN w) = w := by
  have hnnn : w.extractLsb' 8 4 ++ w.extractLsb' 0 8 = fieldNNN w :=
    BitVec.extractLsb'_append_extractLsb'_eq_extractLsb' rfl
  simp only [formatRI, fieldX, fieldNN, BitVec.ofNat_toNat, BitVec.setWidth_eq]
  rw [hnnn]
  exact formatA_fields w

/-- The two bytes of a word in memory order are the word (20_memory R53). -/
theorem wordOfBytes_bytes (w : Word) : wordOfBytes (highByte w) (lowByte w) = w :=
  (BitVec.extractLsb'_append_extractLsb'_eq_extractLsb' rfl).trans BitVec.extractLsb'_eq_self

/-! The round trips. -/

/-- An instruction is well-formed when the indexes it names are below 16. -/
theorem wf_iff {i : Instr} : i.wf = true ↔ ∀ r ∈ i.regs, r < 16 := by
  simp [Instr.wf]

theorem fieldX_lt (w : Word) : fieldX w < 16 := BitVec.isLt _

theorem fieldY_lt (w : Word) : fieldY w < 16 := BitVec.isLt _

/-- The word of a well-formed instruction decodes to it, with every operand. -/
theorem decode_encode {i : Instr} (hi : i.wf = true) : decode (encode i) = .instr i := by
  rw [wf_iff] at hi
  cases i with
  | cls | ret => decide
  | jp nnn | call nnn => simp [encode, decode]
  | seImm x nn | sneImm x nn | ldImm x nn | addImm x nn =>
    have hx : x < 16 := hi x (by simp [Instr.regs])
    simp [encode, decode, fieldX_formatRI _ _ hx]
  | seReg x y | ldReg x y | or x y | and x y | xor x y | addReg x y | sub x y =>
    have hx : x < 16 := hi x (by simp [Instr.regs])
    have hy : y < 16 := hi y (by simp [Instr.regs])
    simp [encode, decode, decodeFamily5, decodeFamily8, fieldX_formatRR _ _ hx, fieldY_formatRR _ _ hy]

/-- The bytes of a well-formed instruction decode to it, whatever follows them. -/
theorem decodeBytes_encodeBytes {i : Instr} (hi : i.wf = true) (rest : List Byte) :
    decodeBytes (encodeBytes i ++ rest) = .instr i rest := by
  simp [encodeBytes, decodeBytes, wordOfBytes_bytes, decode_encode hi]

/-- A word is the format A word of its family and its address. -/
theorem formatA_of_family {f : Nibble} {w : Word} (hf : family w = f) : formatA f (fieldNNN w) = w :=
  hf ▸ formatA_fields w

/-- A word is the format RI word of its family, register and immediate. -/
theorem formatRI_of_family {f : Nibble} {w : Word} (hf : family w = f) : formatRI f (fieldX w) (fieldNN w) = w :=
  hf ▸ formatRI_fields w

/-- A word is the format RR word of its family, registers and low nibble. -/
theorem formatRR_of_family {f n : Nibble} {w : Word} (hf : family w = f) (hn : fieldN w = n) :
    formatRR f (fieldX w) (fieldY w) n = w :=
  hf ▸ hn ▸ formatRR_fields w

/-- A word that decodes is the word of its instruction, whose indexes are fields of four bits. -/
theorem wf_and_encode_of_decode {w : Word} {i : Instr} (hd : decode w = .instr i) :
    i.wf = true ∧ encode i = w := by
  have hx : fieldX w < 16 := BitVec.isLt _
  have hy : fieldY w < 16 := BitVec.isLt _
  unfold decode at hd
  split at hd
  case h_1 =>
    unfold decodeFamily0 at hd
    split_ifs at hd with hcls hret
    · cases hd
      exact ⟨rfl, hcls.symm⟩
    · cases hd
      exact ⟨rfl, hret.symm⟩
  case h_2 hf | h_3 hf =>
    cases hd
    exact ⟨rfl, formatA_of_family hf⟩
  case h_4 hf | h_5 hf | h_7 hf | h_8 hf =>
    cases hd
    exact ⟨by simp [Instr.wf, Instr.regs, hx], formatRI_of_family hf⟩
  case h_6 hf =>
    unfold decodeFamily5 at hd
    split_ifs at hd with hn
    cases hd
    exact ⟨by simp [Instr.wf, Instr.regs, hx, hy], formatRR_of_family hf hn⟩
  case h_9 hf =>
    unfold decodeFamily8 at hd
    split at hd
    case h_1 hn | h_2 hn | h_3 hn | h_4 hn | h_5 hn | h_6 hn =>
      cases hd
      exact ⟨by simp [Instr.wf, Instr.regs, hx, hy], formatRR_of_family hf hn⟩
    case h_7 => cases hd
  case h_10 => cases hd

/-- `Decode` and the encoder are inverse to each other on the well-formed instructions. -/
theorem decode_eq_instr_iff {w : Word} {i : Instr} : decode w = .instr i ↔ i.wf = true ∧ encode i = w := by
  constructor
  · exact wf_and_encode_of_decode
  · rintro ⟨hi, rfl⟩
    exact decode_encode hi

/-! The opcode table (30_encoding R76). -/

/-- Two rows that select the same word have patterns that agree under both masks. -/
theorem pattern_and_mask_of_selects {r q : OpcodeRow} {w : Word} (hr : r.selects w = true)
    (hq : q.selects w = true) : r.pattern &&& q.mask = q.pattern &&& r.mask := by
  rw [← eq_of_beq hr, ← eq_of_beq hq, BitVec.and_assoc, BitVec.and_assoc, BitVec.and_comm r.mask]

/-- Two rows of the table whose patterns agree under both masks are the same row. -/
theorem row_eq_of_pattern_and_mask :
    ∀ r ∈ opcodeTable, ∀ q ∈ opcodeTable, r.pattern &&& q.mask = q.pattern &&& r.mask → r = q := by
  decide

/-- A word selects at most one row of the table. -/
theorem row_eq_of_selects {r q : OpcodeRow} {w : Word} (hr : r ∈ opcodeTable) (hq : q ∈ opcodeTable)
    (hrw : r.selects w = true) (hqw : q.selects w = true) : r = q :=
  row_eq_of_pattern_and_mask r hr q hq (pattern_and_mask_of_selects hrw hqw)

/-- The word of each instruction selects the row with its mnemonic. -/
theorem tableRow (i : Instr) : Laws.TableRow.Statement i := by
  cases i with
  | cls => exact Laws.TableRow.cls
  | ret => exact Laws.TableRow.ret
  | jp nnn => exact Laws.TableRow.jp nnn
  | call nnn => exact Laws.TableRow.call nnn
  | seImm x nn => exact Laws.TableRow.seImm x nn
  | sneImm x nn => exact Laws.TableRow.sneImm x nn
  | seReg x y => exact Laws.TableRow.seReg x y
  | ldImm x nn => exact Laws.TableRow.ldImm x nn
  | addImm x nn => exact Laws.TableRow.addImm x nn
  | ldReg x y => exact Laws.TableRow.ldReg x y
  | or x y => exact Laws.TableRow.or x y
  | and x y => exact Laws.TableRow.and x y
  | xor x y => exact Laws.TableRow.xor x y
  | addReg x y => exact Laws.TableRow.addReg x y
  | sub x y => exact Laws.TableRow.sub x y

/-- A word that selects a row decodes to an instruction with that row's mnemonic. -/
theorem decode_of_selects {r : OpcodeRow} {w : Word} (hr : r ∈ opcodeTable) (hw : r.selects w = true) :
    ∃ i, decode w = .instr i ∧ i.mnemonic = r.mnemonic := by
  cases hd : decode w with
  | unimplementedOpcode u =>
    obtain ⟨-, hnone⟩ := decode_unimplementedOpcode_iff.1 hd
    rw [hnone r hr] at hw
    cases hw
  | instr i =>
    obtain ⟨q, hq, hmn, hqi⟩ := tableRow i
    rw [(wf_and_encode_of_decode hd).2] at hqi
    exact ⟨i, rfl, row_eq_of_selects hr hq hw hqi ▸ hmn.symm⟩

/-! The fields by arithmetic (00_scope R9). -/

section
variable (w : Word)

theorem family_toNat : (family w).toNat = w.toNat / 4096 := by
  rw [family, BitVec.extractLsb'_toNat, Nat.shiftRight_eq_div_pow]
  omega

theorem fieldX_eq : fieldX w = w.toNat / 256 % 16 := by
  rw [fieldX, BitVec.extractLsb'_toNat, Nat.shiftRight_eq_div_pow]

theorem fieldY_eq : fieldY w = w.toNat / 16 % 16 := by
  rw [fieldY, BitVec.extractLsb'_toNat, Nat.shiftRight_eq_div_pow]

theorem fieldN_toNat : (fieldN w).toNat = w.toNat % 16 := by
  rw [fieldN, BitVec.extractLsb'_toNat, Nat.shiftRight_zero]

theorem fieldNN_eq : fieldNN w = BitVec.ofNat 8 w.toNat := rfl

theorem fieldNNN_eq : fieldNNN w = BitVec.ofNat 12 w.toNat := rfl

end

end Sys2Proof

namespace Sys2Proof.Machine

/-- Settles O33: `decode_encode` on the word, `decodeBytes_encodeBytes` on its bytes. -/
theorem decodeEncodeRoundTrip : Obligations.DecodeEncodeRoundTrip :=
  fun _ hi => ⟨decode_encode hi, decodeBytes_encodeBytes hi⟩

/-- Settles O34: each case of `Decode` rebuilds its word from the fields it read. -/
theorem encodeDecodeRoundTrip : Obligations.EncodeDecodeRoundTrip :=
  fun _ _ hd => wf_and_encode_of_decode hd

/-- Settles O32: a word selected by two rows would make their patterns agree under both masks. -/
theorem opcodeRowsDisjoint : Obligations.OpcodeRowsDisjoint :=
  ⟨rfl, fun _ _ hr _ hq hrw hqw => row_eq_of_selects hr hq hrw hqw⟩

/-- Settles O31: the row of the instruction that the word decodes to is the one row the word selects. -/
theorem decodeFollowsOpcodeTable : Obligations.DecodeFollowsOpcodeTable :=
  fun _ => ⟨fun _ hr hw => decode_of_selects hr hw, fun hnone => decode_unimplementedOpcode_iff.2 ⟨rfl, hnone⟩⟩

/-- Settles O30: each condition on the value of the word is one on its fields, by which `Decode` splits. -/
theorem decodeReadsTheFields : Obligations.DecodeReadsTheFields := by
  intro w
  simp only [← family_toNat, ← fieldN_toNat, ← fieldX_eq, ← fieldY_eq, ← fieldNN_eq, ← fieldNNN_eq,
    BitVec.toNat_eq_nat]
  by_cases hcls : w = 0x00E0#16
  · subst hcls
    decide
  by_cases hret : w = 0x00EE#16
  · subst hret
    decide
  unfold decode
  split
  case h_1 hf => simp [decodeFamily0, hf, hcls, hret]
  case h_6 hf => simp [decodeFamily5, hf, hcls, hret]
  case h_9 hf =>
    unfold decodeFamily8
    split <;> simp_all
  case h_10 => simp_all
  all_goals simp [*]

/-- Settles O35: the eight words are evaluated. -/
theorem sampleWordsDecode : Obligations.SampleWordsDecode := by
  unfold Obligations.SampleWordsDecode
  decide

end Sys2Proof.Machine
end

section
/-! PROOFS. The instructions that no section above reads: `CALL` and its return, `SE Vx, Vy` (42_control_flow), the
immediate add (43_immediate) and the two flag-writing operations (44_alu), and the obligations CallResult,
CallReturnRoundTrip, SkipEqualRegisterResult, AddImmediateResult, AddRegisterResult and SubtractResult. -/

namespace Sys2Proof.Machine

/-! The dispatch (40_fetch_decode_dispatch R102). -/

theorem exec_call (nnn : Addr) (s : State) :
    exec (.call nnn) s = .next (jumpTo (target nnn) { s with stack := s.stack ++ [s.pc + 2] }) := rfl

theorem exec_seReg (x y : RegIdx) (s : State) :
    exec (.seReg x y) s = guardRegs [x, y] (skipIf (readReg s x == readReg s y) s) := rfl

theorem exec_sub (x y : RegIdx) (s : State) : exec (.sub x y) s = aluFlagged subResult subBorrow x y s := rfl

/-! The narrowed results in the arithmetic of the rules (44_alu R175 to R177). -/

/-- The sum modulo 256 is the narrowed sum. -/
theorem ofNat_sum_mod (a b : Byte) : BitVec.ofNat 8 ((a.toNat + b.toNat) % 256) = addResult a b := by
  apply BitVec.eq_of_toNat_eq
  simp [addResult, wideSum]

/-- The difference modulo 256 is the narrowed difference. -/
theorem ofNat_diff_mod (a b : Byte) : BitVec.ofNat 8 ((a.toNat + 256 - b.toNat) % 256) = subResult a b := by
  rw [subResult_eq]
  bv_omega

/-! The flag-writing form (44_alu R170). -/

section
variable (f : Byte → Byte → Byte) (flag : Byte → Byte → Bool) {x y : RegIdx} (s : State)

/-- With both registers in range the flag-writing form changes `V[x]`, `CF` and `pc`, and nothing else. -/
theorem aluFlagged_of_lt (hx : x < Config.nregs) (hy : y < Config.nregs) :
    aluFlagged f flag x y s =
      .next { s with v := s.v.set x (f s.v[x] s.v[y]), cf := flag s.v[x] s.v[y], pc := s.pc + 2#16 } := by
  have hcf (t : State) (c : Bool) : advance { t with cf := c } = { advance t with cf := c } := rfl
  rw [aluFlagged_next hx hy, hcf, advance_setReg_of_lt hx, readReg_eq hx, readReg_eq hy]

theorem aluFlagged_fault_left (hx : Config.nregs ≤ x) (y : RegIdx) :
    aluFlagged f flag x y s = .fault (.registerIndexOutOfRange x) :=
  guardRegs_two_fault_left hx y _

theorem aluFlagged_fault_right (hx : x < Config.nregs) (hy : Config.nregs ≤ y) :
    aluFlagged f flag x y s = .fault (.registerIndexOutOfRange y) :=
  guardRegs_two_fault_right hx hy _

end

/-! The obligations. -/

/-- Settles O4: a push on the unbounded stack, then a jump to the target. -/
theorem callResult : Obligations.CallResult :=
  ⟨fun _ hw => decode_of_family_2 hw, fun nnn s => by rw [exec_call, jumpTo, target]; rfl⟩

/-- Settles O24: `RET` pops the one entry that `CALL` has appended. -/
theorem callReturnRoundTrip : Obligations.CallReturnRoundTrip :=
  fun nnn s => ⟨_, exec_call nnn s, rfl, rfl, fun u hu => by rw [exec_ret, pop_append hu, jumpTo]; rfl⟩

/-- Settles O7: behind the guard stands a skip whose condition is that the two registers are equal. -/
theorem skipEqualRegisterResult : Obligations.SkipEqualRegisterResult := by
  refine ⟨fun w hw hn => decode_of_family_5_of_0 hw hn, fun x y hx hy s => ?_, fun x y s hx => ?_,
    fun x y s hx hy => ?_⟩
  · rw [exec_seReg, guardRegs_two hx hy, readReg_eq hx, readReg_eq hy, skipIf_of_iff beq_iff_eq]
  · rw [exec_seReg, guardRegs_two_fault_left hx]
  · rw [exec_seReg, guardRegs_two_fault_right hx hy]

/-- Settles O9: behind the guard stands one write of the narrowed sum, then the advance. -/
theorem addImmediateResult : Obligations.AddImmediateResult := by
  refine ⟨fun w hw => decode_of_family_7 hw, fun x hx nn s => ?_, fun x nn s hx => ?_⟩
  · rw [exec_addImm, guardRegs_one hx, advance_setReg_of_lt hx, readReg_eq hx, ofNat_sum_mod]
  · rw [exec_addImm, guardRegs_one_fault hx]

/-- Settles O14: the flag-writing form at the narrowed sum and its carry. -/
theorem addRegisterResult : Obligations.AddRegisterResult := by
  refine ⟨fun w hw hn => decode_of_family_8_of_4 hw hn, fun x y hx hy s => ?_, fun x y s hx => ?_,
    fun x y s hx hy => ?_⟩
  · rw [exec_addReg, aluFlagged_of_lt _ _ s hx hy, ofNat_sum_mod]
    rfl
  · rw [exec_addReg, aluFlagged_fault_left _ _ s hx]
  · rw [exec_addReg, aluFlagged_fault_right _ _ s hx hy]

/-- Settles O15: the flag-writing form at the narrowed difference and its borrow. -/
theorem subtractResult : Obligations.SubtractResult := by
  refine ⟨fun w hw hn => decode_of_family_8_of_5 hw hn, fun x y hx hy s => ?_, fun x y s hx => ?_,
    fun x y s hx hy => ?_⟩
  · rw [exec_sub, aluFlagged_of_lt _ _ s hx hy, ofNat_diff_mod, subBorrow_eq]
  · rw [exec_sub, aluFlagged_fault_left _ _ s hx]
  · rw [exec_sub, aluFlagged_fault_right _ _ s hx hy]

end Sys2Proof.Machine
end

section
/-! PROOFS. The rules over all fifteen instructions (10_state R22 to R32): `effect`, the next state of an instruction
that completes; what it leaves unchanged and what it reads; and the obligations RegisterIndexFaultsInOrder,
ExecCompletes, ExecFrame, PcAdvanceTable, CarryFlagNeverRead, MemoryAndDisplayNeverRead and
OnlyNamedRegistersAreRead. -/

namespace Sys2Proof.Machine

/-- The next state of an instruction that completes: `exec` without the range check of its registers and without
`StackUnderflow`. `exec_eq_effect` ties it to `exec`. -/
def effect (i : Instr) (s : State) : State :=
  match i with
  | .cls => advance { s with display := Plane.off }
  | .ret => { s with stack := s.stack.dropLast, pc := s.stack.getLast?.getD s.pc }
  | .jp nnn => jumpTo (target nnn) s
  | .call nnn => jumpTo (target nnn) { s with stack := s.stack ++ [s.pc + 2] }
  | .seImm x nn => { s with pc := if readReg s x == nn then s.pc + 4#16 else s.pc + 2#16 }
  | .sneImm x nn => { s with pc := if readReg s x != nn then s.pc + 4#16 else s.pc + 2#16 }
  | .seReg x y => { s with pc := if readReg s x == readReg s y then s.pc + 4#16 else s.pc + 2#16 }
  | .ldImm x nn => advance (setReg x nn s)
  | .addImm x nn => advance (setReg x (addResult (readReg s x) nn) s)
  | .ldReg x y => advance (setReg x (readReg s y) s)
  | .or x y => advance (setReg x (readReg s x ||| readReg s y) s)
  | .and x y => advance (setReg x (readReg s x &&& readReg s y) s)
  | .xor x y => advance (setReg x (readReg s x ^^^ readReg s y) s)
  | .addReg x y =>
    advance { setReg x (addResult (readReg s x) (readReg s y)) s with cf := addCarry (readReg s x) (readReg s y) }
  | .sub x y =>
    advance { setReg x (subResult (readReg s x) (readReg s y)) s with cf := subBorrow (readReg s x) (readReg s y) }

/-- What an instruction does once its registers are in range: `RET` on an empty stack faults, and all else is its
effect. -/
def unguarded (i : Instr) (s : State) : Outcome :=
  if i = .ret ∧ s.stack = [] then .fault .stackUnderflow else .next (effect i s)

/-- Every instruction is the range check of its registers and then its effect, but for `RET` on an empty stack. -/
theorem exec_eq_effect (i : Instr) (s : State) : exec i s = guardRegs i.regs (unguarded i s) := by
  cases i with
  | ret =>
    obtain hst | ⟨st, v, hst⟩ := stack_cases s.stack
    · rw [exec_ret, pop_empty hst]
      simp [Instr.regs, guardRegs, unguarded, hst]
    · rw [exec_ret, pop_append hst]
      simp [Instr.regs, guardRegs, unguarded, effect, hst, jumpTo]
  | seImm x nn =>
    rw [exec_seImm, skipIf_of_iff Iff.rfl]
    rfl
  | sneImm x nn =>
    rw [exec_sneImm, skipIf_of_iff Iff.rfl]
    rfl
  | seReg x y =>
    rw [exec_seReg, skipIf_of_iff Iff.rfl]
    rfl
  | _ => rfl

/-- An instruction with its registers in range gives its effect, but for `RET` on an empty stack. -/
theorem exec_of_regs {i : Instr} {s : State} (hr : ∀ r ∈ i.regs, r < Config.nregs)
    (hst : i = .ret → s.stack ≠ []) : exec i s = .next (effect i s) := by
  obtain ⟨hg, -⟩ | ⟨r, hmem, hle, -⟩ := guardRegs_cases i.regs (unguarded i s)
  · rw [exec_eq_effect, hg, unguarded, if_neg fun h => hst h.1 h.2]
  · exact absurd (hr r hmem) (Nat.not_lt.2 hle)

/-- An instruction that completes had its registers in range and gave its effect. -/
theorem exec_next {i : Instr} {s t : State} (h : exec i s = .next t) :
    (∀ r ∈ i.regs, r < Config.nregs) ∧ t = effect i s := by
  rw [exec_eq_effect] at h
  obtain ⟨hu, hr⟩ := guardRegs_next h
  unfold unguarded at hu
  split at hu
  · cases hu
  · cases hu
    exact ⟨hr, rfl⟩

/-! What the effect leaves unchanged (10_state R23, R28, R30, R32; 20_memory R57). -/

/-- A write leaves every other register as it was. -/
theorem setReg_getElem?_of_ne {x r : RegIdx} (h : x ≠ r) (b : Byte) (s : State) : (setReg x b s).v[r]? = s.v[r]? := by
  rw [setReg_v, Vector.getElem?_setIfInBounds, if_neg h]

theorem effect_v_of_dest {i : Instr} {r : RegIdx} (hd : i.dest ≠ some r) (s : State) :
    (effect i s).v[r]? = s.v[r]? := by
  cases i with
  | cls | ret | jp | call | seImm | sneImm | seReg => rfl
  | ldImm x | addImm x | ldReg x | or x | and x | xor x | addReg x | sub x =>
    exact setReg_getElem?_of_ne (fun hx => hd (congrArg some hx)) _ s

theorem effect_cf {i : Instr} (hc : i.writesCarry = false) (s : State) : (effect i s).cf = s.cf := by
  cases i with
  | addReg | sub => cases hc
  | _ => rfl

theorem effect_stack {i : Instr} (hu : i.usesStack = false) (s : State) : (effect i s).stack = s.stack := by
  cases i with
  | ret | call => cases hu
  | _ => rfl

theorem effect_display {i : Instr} (hi : i ≠ .cls) (s : State) : (effect i s).display = s.display := by
  cases i with
  | cls => exact absurd rfl hi
  | _ => rfl

@[simp] theorem effect_mem (i : Instr) (s : State) : (effect i s).mem = s.mem := by
  cases i <;> rfl

/-! The program counter (10_state R25). -/

/-- The wrapped sum of the rule is the addition of words. -/
theorem ofNat_add_mod (p : Word) (k : Nat) : BitVec.ofNat 16 ((p.toNat + k) % 65536) = p + BitVec.ofNat 16 k := by
  apply BitVec.eq_of_toNat_eq
  simp

/-- The effect sets `pc` by the table. -/
theorem effect_pc {i : Instr} {s : State} (hr : ∀ r ∈ i.regs, r < Config.nregs) :
    (effect i s).pc = nextPc i s := by
  cases i with
  | ret => rfl
  | jp nnn | call nnn => simp [effect, nextPc, target]
  | seImm x nn | sneImm x nn =>
    have hx : x < 16 := hr x (by simp [Instr.regs])
    simp [effect, nextPc, readReg_eq hx, ofNat_add_mod, Vector.getElem?_eq_getElem hx]
  | seReg x y =>
    have hx : x < 16 := hr x (by simp [Instr.regs])
    have hy : y < 16 := hr y (by simp [Instr.regs])
    simp [effect, nextPc, readReg_eq hx, readReg_eq hy, ofNat_add_mod, Vector.getElem?_eq_getElem hx,
      Vector.getElem?_eq_getElem hy]
  | _ => exact (ofNat_add_mod s.pc 2).symm

/-! What the effect does not read. -/

theorem guardRegs_mapNext (g : State → State) (rs : List RegIdx) (o : Outcome) :
    guardRegs rs (mapNext g o) = mapNext g (guardRegs rs o) := by
  unfold guardRegs
  split <;> rfl

/-- Two states with the same stack whose effects differ by `g` give outcomes that differ by `g`. -/
theorem exec_eq_mapNext {i : Instr} {s s' : State} {g : State → State} (hst : s'.stack = s.stack)
    (he : effect i s' = g (effect i s)) : exec i s' = mapNext g (exec i s) := by
  have hu : unguarded i s' = mapNext g (unguarded i s) := by
    rw [unguarded, unguarded, hst, he]
    split <;> rfl
  rw [exec_eq_effect, exec_eq_effect, hu, guardRegs_mapNext]

theorem mapNext_id (o : Outcome) : mapNext id o = o := by
  cases o <;> rfl

theorem effect_with_cf (i : Instr) (s : State) (b : Bool) :
    effect i { s with cf := b } = if i.writesCarry then effect i s else { effect i s with cf := b } := by
  cases i <;> rfl

theorem effect_with_mem_display (i : Instr) (s : State) (m : Memory) (p : Plane) :
    effect i { s with mem := m, display := p } =
      { effect i s with mem := m, display := if i = .cls then (effect i s).display else p } := by
  cases i <;> rfl

/-- The registers an instruction reads are as they were after a write to another register. -/
theorem readReg_setReg_of_notMem {i : Instr} {z r : RegIdx} (hz : z ∉ i.reads) (hr : r ∈ i.reads) (b : Byte)
    (s : State) : readReg (setReg z b s) r = readReg s r := by
  rw [readReg_setReg, if_neg]
  rintro ⟨rfl, -⟩
  exact hz hr

/-- Writes to two registers commute. -/
theorem setReg_comm {x z : RegIdx} (h : x ≠ z) (a b : Byte) (s : State) :
    setReg x a (setReg z b s) = setReg z b (setReg x a s) := by
  have hv : (s.v.setIfInBounds z b).setIfInBounds x a = (s.v.setIfInBounds x a).setIfInBounds z b := by
    refine Vector.ext fun j hj => ?_
    simp only [Vector.getElem_setIfInBounds hj]
    split_ifs with hx hz
    · exact absurd (hx.trans hz.symm) h
    all_goals rfl
  simp only [setReg, hv]

/-- The second of two writes to a register is the one that stays. -/
theorem setReg_setReg (x : RegIdx) (a b : Byte) (s : State) : setReg x a (setReg x b s) = setReg x a s := by
  rw [setReg, setReg_v, Vector.setIfInBounds_setIfInBounds]
  rfl

theorem effect_setReg_of_ne {i : Instr} {z : RegIdx} (hz : z ∉ i.reads) (hd : i.dest ≠ some z) (b : Byte)
    (s : State) : effect i (setReg z b s) = setReg z b (effect i s) := by
  have hread (r : RegIdx) (hr : r ∈ i.reads) := readReg_setReg_of_notMem hz hr b s
  cases i with
  | cls | ret | jp | call => rfl
  | seImm x | sneImm x =>
    simp only [effect, hread x (by simp [Instr.reads])]
    rfl
  | seReg x y =>
    simp only [effect, hread x (by simp [Instr.reads]), hread y (by simp [Instr.reads])]
    rfl
  | ldImm x =>
    have hx : x ≠ z := fun h => hd (congrArg some h)
    simp only [effect, setReg_comm hx]
    rfl
  | addImm x =>
    have hx : x ≠ z := fun h => hd (congrArg some h)
    simp only [effect, hread x (by simp [Instr.reads]), setReg_comm hx]
    rfl
  | ldReg x y =>
    have hx : x ≠ z := fun h => hd (congrArg some h)
    simp only [effect, hread y (by simp [Instr.reads]), setReg_comm hx]
    rfl
  | or x y | and x y | xor x y | addReg x y | sub x y =>
    have hx : x ≠ z := fun h => hd (congrArg some h)
    simp only [effect, hread x (by simp [Instr.reads]), hread y (by simp [Instr.reads]), setReg_comm hx]
    rfl

/-- Only `LD` has a destination it does not read. -/
theorem effect_setReg_of_dest {i : Instr} {z : RegIdx} (hz : z ∉ i.reads) (hd : i.dest = some z) (b : Byte)
    (s : State) : effect i (setReg z b s) = effect i s := by
  have hread (r : RegIdx) (hr : r ∈ i.reads) := readReg_setReg_of_notMem hz hr b s
  cases i with
  | cls | ret | jp | call | seImm | sneImm | seReg => cases hd
  | ldImm x =>
    cases hd
    simp only [effect, setReg_setReg]
  | ldReg x y =>
    cases hd
    simp only [effect, hread y (by simp [Instr.reads]), setReg_setReg]
  | addImm x | or x | and x | xor x | addReg x | sub x =>
    cases hd
    exact absurd (List.mem_cons_self ..) hz

/-! The obligations. -/

/-- Settles O17: the guard finds the first index out of range, and a decoded instruction is well-formed. -/
theorem registerIndexFaultsInOrder : Obligations.RegisterIndexFaultsInOrder := by
  refine ⟨fun i s r hr => ?_, fun w i hd => wf_iff.1 (wf_and_encode_of_decode hd).1⟩
  rw [exec_eq_effect, guardRegs_of_find? hr]

/-- Settles O18: the next state is the effect. -/
theorem execCompletes : Obligations.ExecCompletes :=
  fun _ _ hr hst => ⟨_, exec_of_regs hr hst⟩

/-- Settles O19: the frame of the effect, item by item. -/
theorem execFrame : Obligations.ExecFrame := by
  intro i s t h
  obtain ⟨-, rfl⟩ := exec_next h
  exact ⟨fun r hd => effect_v_of_dest hd s, fun hc => effect_cf hc s, fun hu => effect_stack hu s,
    fun hi => effect_display hi s, fun a => by rw [effect_mem], effect_mem i s⟩

/-- Settles O23: the effect sets `pc` by the table, and a `Step` that faults leaves the block as it was. -/
theorem pcAdvanceTable : Obligations.PcAdvanceTable := by
  refine ⟨fun i s t h => ?_, fun s f hf => after_step_of_fault hf⟩
  obtain ⟨hr, rfl⟩ := exec_next h
  exact effect_pc hr

/-- Settles O20: the write commutes with the effect, or is lost in it. -/
theorem onlyNamedRegistersAreRead : Obligations.OnlyNamedRegistersAreRead := by
  refine fun i s z b hz => ⟨fun hd => exec_eq_mapNext rfl (effect_setReg_of_ne hz hd b s), fun hd => ?_⟩
  rw [exec_eq_mapNext (g := id) (setReg_stack s z b) (effect_setReg_of_dest hz hd b s), mapNext_id]

/-- Settles O21: `CF` set before is `CF` set in the effect. -/
theorem carryFlagNeverRead : Obligations.CarryFlagNeverRead :=
  fun i s b => exec_eq_mapNext rfl (effect_with_cf i s b)

/-- Settles O22: memory and display put in before are put in in the effect. -/
theorem memoryAndDisplayNeverRead : Obligations.MemoryAndDisplayNeverRead :=
  fun i s m p => exec_eq_mapNext rfl (effect_with_mem_display i s m p)

end Sys2Proof.Machine
end

section
/-! PROOFS. Fetch and `Step` (20_memory R53 to R55, 40_fetch_decode_dispatch R100): the bytes fetched, the causes of a
fault, and the obligations FetchReadsTwoBytes, StepRunsDecodedInstruction, StepFaultCauses and
SelfJumpChangesNothing. -/

namespace Sys2Proof.Machine

/-! The fetch. -/

/-- The fetch from inside memory. -/
theorem fetch_of_lt {s : State} (h : s.pc.toNat + 1 < 4096) :
    fetch s = .word (wordOfBytes (s.mem.read s.pc.toNat) (s.mem.read (s.pc.toNat + 1))) := by
  obtain ⟨-, hf⟩ | ⟨hge, -⟩ := fetch_cases s
  · exact hf
  · omega

/-- The fetch that would leave memory. -/
theorem fetch_of_ge {s : State} (h : 4096 ≤ s.pc.toNat + 1) : fetch s = .outOfRange s.pc := by
  obtain ⟨hlt, -⟩ | ⟨-, hf⟩ := fetch_cases s
  · omega
  · exact hf

/-- A word was fetched from inside memory. -/
theorem lt_of_fetch {s : State} {w : Word} (h : fetch s = .word w) : s.pc.toNat + 1 < 4096 := by
  by_contra hge
  rw [fetch_of_ge (by omega)] at h
  cases h

/-- The value of a big-endian word (20_memory R53). -/
theorem wordOfBytes_toNat (b0 b1 : Byte) : (wordOfBytes b0 b1).toNat = b0.toNat * 256 + b1.toNat := by
  rw [wordOfBytes, BitVec.toNat_append, ← Nat.shiftLeft_add_eq_or_of_lt b1.isLt, Nat.shiftLeft_eq]

/-! The step. -/

/-- A `Step` on a word that decodes is the execution of its instruction. -/
theorem step_of_decode {s : State} {w : Word} {i : Instr} (hf : fetch s = .word w) (hd : decode w = .instr i) :
    step s = exec i s := by
  simp [step, hf, hd]

/-- A `Step` that completes has fetched the word of an instruction and executed it. -/
theorem step_next {s t : State} (h : step s = .next t) :
    ∃ i, fetch s = .word (encode i) ∧ exec i s = .next t := by
  obtain ⟨w, i, hf, hd, hs⟩ | ⟨w, u, -, -, hs⟩ | ⟨a, -, hs⟩ := step_cases s
  · exact ⟨i, (wf_and_encode_of_decode hd).2 ▸ hf, hs ▸ h⟩
  · cases hs.symm.trans h
  · cases hs.symm.trans h

/-- The faults of a `Step`, each with its cause: no decoded instruction names a register out of range. -/
theorem step_fault_cases {s : State} {f : Fault} (h : step s = .fault f) :
    (f = .fetchOutOfRange s.pc ∧ 4096 ≤ s.pc.toNat + 1) ∨
    (∃ w, f = .unimplementedOpcode w ∧ fetch s = .word w ∧ decode w = .unimplementedOpcode w) ∨
    (f = .stackUnderflow ∧ s.stack = [] ∧ fetch s = .word 0x00EE#16) := by
  obtain ⟨w, i, hf, hd, hs⟩ | ⟨w, u, hf, hd, hs⟩ | ⟨a, hf, hs⟩ := step_cases s
  · obtain ⟨hwf, henc⟩ := wf_and_encode_of_decode hd
    obtain ⟨r, hr, hle, -⟩ | ⟨rfl, hst, rfl⟩ := exec_fault_cases (hs ▸ h)
    · exact absurd (wf_iff.1 hwf r hr) (Nat.not_lt.2 hle)
    · exact .inr (.inr ⟨rfl, hst, hf.trans (congrArg Fetched.word henc.symm)⟩)
  · cases hs.symm.trans h
    obtain ⟨rfl, -⟩ := decode_unimplementedOpcode_iff.1 hd
    exact .inr (.inl ⟨w, rfl, hf, hd⟩)
  · cases hs.symm.trans h
    obtain ⟨-, hw⟩ | ⟨hge, ha⟩ := fetch_cases s
    · cases hw.symm.trans hf
    · cases ha.symm.trans hf
      exact .inl ⟨rfl, hge⟩

theorem guardRegs_ne_refused {rs : List RegIdx} {o : Outcome} {r : Refusal} (h : o ≠ .refused r) :
    guardRegs rs o ≠ .refused r := by
  obtain ⟨he, -⟩ | ⟨_, -, -, he⟩ := guardRegs_cases rs o
  · rwa [he]
  · simp [he]

/-- Every instruction has a meaning. -/
theorem exec_ne_refused (i : Instr) (s : State) (r : Refusal) : exec i s ≠ .refused r := by
  rw [exec_eq_effect]
  refine guardRegs_ne_refused ?_
  unfold unguarded
  split <;> simp

theorem step_ne_refused (s : State) (r : Refusal) : step s ≠ .refused r := by
  obtain ⟨w, i, -, -, hs⟩ | ⟨w, u, -, -, hs⟩ | ⟨a, -, hs⟩ := step_cases s
  · exact hs ▸ exec_ne_refused i s r
  · simp [hs]
  · simp [hs]

/-! The obligations. -/

/-- Settles O26: the two cases of the fetch, and the value of the word of two bytes. -/
theorem fetchReadsTwoBytes : Obligations.FetchReadsTwoBytes :=
  fun _ => ⟨fun h => ⟨_, fetch_of_lt (by omega), wordOfBytes_toNat ..⟩, fun h => fetch_of_ge (by omega)⟩

/-- Settles O25: the three ways of a `Step`. -/
theorem stepRunsDecodedInstruction : Obligations.StepRunsDecodedInstruction := by
  refine fun s => ⟨fun i hpc hd => ⟨(wf_and_encode_of_decode hd).1, step_of_decode (fetch_of_lt hpc) hd⟩,
    fun w hpc hd => ?_, fun hpc => ?_⟩
  · exact step_unimplementedOpcode_iff.2 ⟨_, fetch_of_lt hpc, hd⟩
  · simp [step, fetch_of_ge hpc, raise]

/-- Settles O28: a `Step` that completes has fetched, the causes of its faults, and no refusal. -/
theorem stepFaultCauses : Obligations.StepFaultCauses := by
  intro s
  split
  case h_1 t h =>
    obtain ⟨i, hf, -⟩ := step_next h
    exact lt_of_fetch hf
  case h_2 f h => exact step_fault_cases h
  case h_3 r h => exact step_ne_refused s r h

/-- Settles O29: a fetched `pc` is below 4096, so the address of the jump loses nothing of it. -/
theorem selfJumpChangesNothing : Obligations.SelfJumpChangesNothing := by
  intro s hf
  have hpc : (BitVec.ofNat 12 s.pc.toNat).setWidth 16 = s.pc := by
    have hlt := lt_of_fetch hf
    apply BitVec.eq_of_toNat_eq
    rw [BitVec.toNat_setWidth_of_le (by decide), BitVec.toNat_ofNat, Nat.mod_eq_of_lt (by omega)]
  rw [step_of_decode hf (decode_encode rfl), exec_jp, jumpTo, target, hpc]

end Sys2Proof.Machine
end

section
/-! PROOFS. Memory in canonical form and the operations that initialise (10_state R31, 70_reset_and_hazards R230 to
R242), and the obligations CanonicalMemoryIsUnique, LoadResult, LoadThenStepRunsTheImage, ResetResult,
InitialisingLaws, PowerOnState and StepFromAddressZeroFaults. -/

namespace Sys2Proof.Machine

/-! Memory. -/

theorem memory_read_cons_self (a : Nat) (b : Byte) (m : Memory) : Memory.read ((a, b) :: m) a = b := if_pos rfl

theorem memory_read_cons_of_ne {a c : Nat} (h : c ≠ a) (b : Byte) (m : Memory) :
    Memory.read ((a, b) :: m) c = m.read c := if_neg h

/-- The first address of a canonical memory is not above one that does not read as `MEM_INIT`. -/
theorem memory_head_le {lo a c : Nat} {b : Byte} {m : Memory} (h : Memory.wfFrom lo ((a, b) :: m) = true)
    (hc : Memory.read ((a, b) :: m) c ≠ 0) : a ≤ c := by
  obtain ⟨-, ha, hb, hm⟩ := (memory_wfFrom_cons ..).1 h
  by_contra hlt
  exact hc (memory_read_below ((memory_wfFrom_cons ..).2 ⟨le_refl a, ha, hb, hm⟩) (by omega))

/-- Two canonical memories that read alike inside memory are the same data. -/
theorem memory_eq_of_read_eq {lo : Nat} {m m' : Memory} (h : Memory.wfFrom lo m = true)
    (h' : Memory.wfFrom lo m' = true) (hread : ∀ c, c < 4096 → m.read c = m'.read c) : m = m' := by
  induction m generalizing lo m' with
  | nil =>
    cases m' with
    | nil => rfl
    | cons cell' m' =>
      obtain ⟨a', b'⟩ := cell'
      obtain ⟨-, ha', hb', -⟩ := (memory_wfFrom_cons ..).1 h'
      have hb0 : (0 : Byte) = b' := (hread a' ha').trans (memory_read_cons_self a' b' m')
      exact absurd hb0.symm hb'
  | cons cell m ih =>
    obtain ⟨a, b⟩ := cell
    obtain ⟨-, ha, hb, hm⟩ := (memory_wfFrom_cons ..).1 h
    have hra := hread a ha
    rw [memory_read_cons_self] at hra
    cases m' with
    | nil => exact absurd hra hb
    | cons cell' m' =>
      obtain ⟨a', b'⟩ := cell'
      obtain ⟨-, ha', hb', hm'⟩ := (memory_wfFrom_cons ..).1 h'
      have hra' := hread a' ha'
      rw [memory_read_cons_self] at hra'
      obtain rfl : a = a' := Nat.le_antisymm (memory_head_le h (hra' ▸ hb')) (memory_head_le h' (hra ▸ hb))
      obtain rfl : b = b' := hra.trans (memory_read_cons_self a b' m')
      refine congrArg _ (ih hm hm' fun c hc => ?_)
      by_cases hca : c = a
      · rw [hca, memory_read_below hm (Nat.lt_succ_self a), memory_read_below hm' (Nat.lt_succ_self a)]
      · have hrc := hread c hc
        rwa [memory_read_cons_of_ne hca, memory_read_cons_of_ne hca] at hrc

/-! `Load` (70_reset_and_hazards R232, R233). -/

/-- An image that fits is written at `BASE`, and `pc` is set to it. -/
theorem load_of_le {bytes : List Byte} (s : State) (h : bytes.length ≤ 3584) :
    load bytes s = .next { s with mem := s.mem.writeBytes 512 bytes, pc := 512#16 } := if_pos h

/-- A longer image is refused. -/
theorem load_of_gt {bytes : List Byte} (s : State) (h : 3584 < bytes.length) :
    load bytes s = .fault (.imageTooLarge bytes.length) := if_neg (Nat.not_le.2 h)

/-- A `Load` that succeeds had an image that fits. -/
theorem load_next {bytes : List Byte} {s t : State} (h : load bytes s = .next t) :
    bytes.length ≤ 3584 ∧ t = { s with mem := s.mem.writeBytes 512 bytes, pc := 512#16 } := by
  by_cases hlen : bytes.length ≤ 3584
  · rw [load_of_le s hlen] at h
    cases h
    exact ⟨hlen, rfl⟩
  · rw [load_of_gt s (by omega)] at h
    cases h

/-- Writing the same bytes again at the same place changes nothing. -/
theorem memory_writeBytes_again {a : Nat} {bs : List Byte} {m : Memory} (h : m.wf = true)
    (ha : a + bs.length ≤ 4096) : (m.writeBytes a bs).writeBytes a bs = m.writeBytes a bs := by
  have h1 := memory_writeBytes_wf h ha
  refine memory_eq_of_read_eq (memory_writeBytes_wf h1 ha) h1 fun c _ => ?_
  by_cases hin : a ≤ c ∧ c < a + bs.length
  · obtain ⟨k, rfl⟩ := Nat.exists_eq_add_of_le hin.1
    have hk : k < bs.length := by omega
    rw [memory_read_writeBytes_inside h1 ha hk, memory_read_writeBytes_inside h ha hk]
  · exact memory_read_writeBytes_outside (by omega)

/-- Byte `k` of a loaded image stands at `BASE + k`. -/
theorem read_load {bytes : List Byte} {s : State} {k : Nat} (hwf : s.mem.wf = true) (h : bytes.length ≤ 3584)
    (hk : k < bytes.length) : (s.mem.writeBytes 512 bytes).read (512 + k) = bytes[k] :=
  memory_read_writeBytes_inside hwf (by omega) hk

/-- The fetch after a `Load` reads the first two bytes of the image. -/
theorem fetch_of_load {b0 b1 : Byte} {rest : List Byte} {s t : State} (hwf : s.mem.wf = true)
    (h : load (b0 :: b1 :: rest) s = .next t) : fetch t = .word (wordOfBytes b0 b1) := by
  obtain ⟨hlen, rfl⟩ := load_next h
  have h0 := read_load hwf hlen (k := 0) (by simp)
  have h1 := read_load hwf hlen (k := 1) (by simp)
  rw [fetch_of_lt (show (512#16 : Word).toNat + 1 < 4096 by decide)]
  exact congrArg Fetched.word (congrArg₂ wordOfBytes h0 h1)

/-! The obligations. -/

/-- Settles O39: by induction along the cells, whose first addresses must agree. -/
theorem canonicalMemoryIsUnique : Obligations.CanonicalMemoryIsUnique :=
  fun _ _ h h' hread => memory_eq_of_read_eq h h' hread

/-- Settles O40: the memory is the image written at `BASE`. -/
theorem loadResult : Obligations.LoadResult :=
  ⟨fun _ s hwf hlen => ⟨_, memory_writeBytes_wf hwf (by omega), load_of_le s hlen,
    fun _ hk => read_load hwf hlen hk, fun _ ha => memory_read_writeBytes_outside ha⟩,
    fun _ s hlen => load_of_gt s hlen⟩

/-- Settles O41: the `Step` fetches the first word of the image. -/
theorem loadThenStepRunsTheImage : Obligations.LoadThenStepRunsTheImage :=
  fun _ _ _ _ _ _ hwf h hd => step_of_decode (fetch_of_load hwf h) hd

/-- Settles O42: the fields of `hostReset`. -/
theorem resetResult : Obligations.ResetResult :=
  fun _ => ⟨fun _ hi => Vector.getElem_replicate hi, rfl, rfl⟩

/-- Settles O43: writing the image again changes nothing, and `Reset` does not touch what `Load` writes but `pc`. -/
theorem initialisingLaws : Obligations.InitialisingLaws := by
  refine ⟨fun _ => rfl, fun bytes s t hwf h => ?_⟩
  obtain ⟨hlen, rfl⟩ := load_next h
  refine ⟨?_, rfl, rfl, load_of_le _ hlen, rfl⟩
  rw [load_of_le _ hlen, memory_writeBytes_again hwf (by omega)]

/-- Settles O44: the fields of `State.reset`. -/
theorem powerOnState : Obligations.PowerOnState := by
  refine ⟨fun b => ?_, fun _ hi => Vector.getElem_replicate hi, rfl, rfl, rfl, fun _ => rfl, px_off⟩
  cases b <;> rfl

/-- With `pc` 0 and the reserved region clear a `Step` fetches the word 0x0000, which is in no row. -/
theorem step_of_pc_zero {s : State} (hpc : s.pc = 0) (hclear : ReservedClear s) :
    step s = .fault (.unimplementedOpcode 0x0000#16) := by
  have hlt : s.pc.toNat + 1 < 4096 := by simp [hpc]
  have h0 : s.mem.read s.pc.toNat = 0 := hclear _ (by simp [hpc])
  have h1 : s.mem.read (s.pc.toNat + 1) = 0 := hclear _ (by simp [hpc])
  refine step_unimplementedOpcode_iff.2 ⟨_, fetch_of_lt hlt, ?_⟩
  rw [h0, h1]
  decide

/-- Settles O45: `pc` is 0 after both, and `Reset` leaves the reserved region as it was. -/
theorem stepFromAddressZeroFaults : Obligations.StepFromAddressZeroFaults :=
  ⟨step_of_pc_zero rfl fun _ _ => rfl, fun _ hclear => step_of_pc_zero rfl hclear⟩

end Sys2Proof.Machine
end

section
/-! PROOFS. `Draw` on its own result (41_display R122, R127), and the obligations DrawChangesOnlyTheDisplay and
DrawTwiceRestores. -/

namespace Sys2Proof.Machine

/-- A `Draw` that succeeds had a rectangle inside the plane, and gave the scan of it and its collision bit. -/
theorem draw_next {x y w h : Byte} {s t : State} {c : Bool} (hd : draw x y w h s = .next (t, c)) :
    (x.toNat + w.toNat ≤ 64 ∧ y.toNat + h.toNat ≤ 32) ∧
    t = { s with display := (drawRows x.toNat y.toNat w.toNat h.toNat (s.display, false)).1 } ∧
    c = (drawRows x.toNat y.toNat w.toNat h.toNat (s.display, false)).2 := by
  by_cases hfit : x.toNat + w.toNat ≤ 64 ∧ y.toNat + h.toNat ≤ 32
  · rw [draw_of_fits s hfit.1 hfit.2] at hd
    cases hd
    exact ⟨hfit, rfl, rfl⟩
  · rw [draw_of_exceeds s (by omega)] at hd
    cases hd

section
variable {x y w h : Nat} (hw : x + w ≤ 64) (hh : y + h ≤ 32)
include hw hh

/-- The scan of a rectangle undoes the scan of the same rectangle: each of its pixels is inverted twice. -/
theorem drawRows_twice {acc : Plane × Bool} (c : Bool) :
    (drawRows x y w h ((drawRows x y w h acc).1, c)).1 = acc.1 :=
  plane_ext fun i j _ _ => by simp [px_drawRows hw hh]

/-- On a dark rectangle the scan reports no collision. -/
theorem no_collision_of_dark {p : Plane}
    (hdark : ∀ i j, x ≤ i ∧ i < x + w ∧ y ≤ j ∧ j < y + h → p.px i j = false) :
    (drawRows x y w h (p, false)).2 = false := by
  rw [Bool.eq_false_iff, ne_eq, collision_drawRows hw hh]
  rintro (hc | ⟨i, j, hr, hon⟩)
  · cases hc
  · cases (hdark i j hr).symm.trans hon

/-- After a scan of a dark rectangle its pixels are on, so a second scan collides exactly when it has a pixel. -/
theorem collision_iff_of_dark {p : Plane}
    (hdark : ∀ i j, x ≤ i ∧ i < x + w ∧ y ≤ j ∧ j < y + h → p.px i j = false) :
    (drawRows x y w h ((drawRows x y w h (p, false)).1, false)).2 = true ↔ 0 < w ∧ 0 < h := by
  rw [collision_drawRows hw hh]
  constructor
  · rintro (hc | ⟨i, j, hr, -⟩)
    · cases hc
    · omega
  · rintro ⟨hw0, hh0⟩
    refine .inr ⟨x, y, by omega, ?_⟩
    simp [px_drawRows hw hh, hdark x y (by omega), hw0, hh0]

end

/-- The `Draw` that succeeded succeeds again and gives the state before the first back. -/
theorem draw_twice {x y w h : Byte} {s t : State} {c : Bool} (hd : draw x y w h s = .next (t, c)) :
    draw x y w h t = .next (s, (drawRows x.toNat y.toNat w.toNat h.toNat (t.display, false)).2) := by
  obtain ⟨⟨hx, hy⟩, rfl, -⟩ := draw_next hd
  rw [draw_of_fits _ hx hy, drawRows_twice hx hy]

/-- Settles O48: the scan is written to the display, and the operation passes its collision bit on. -/
theorem drawChangesOnlyTheDisplay : Obligations.DrawChangesOnlyTheDisplay := by
  intro x y w h s t c hd
  refine ⟨?_, by rw [operate_draw, hd, withCollision]⟩
  obtain ⟨-, rfl, -⟩ := draw_next hd
  rfl

/-- Settles O49: the scan undoes itself, and lights a dark rectangle. -/
theorem drawTwiceRestores : Obligations.DrawTwiceRestores := by
  intro x y w h s t c hd
  refine ⟨_, draw_twice hd, fun hdark => ?_⟩
  obtain ⟨⟨hx, hy⟩, rfl, rfl⟩ := draw_next hd
  simp only [inRect_iff] at hdark
  exact ⟨no_collision_of_dark hx hy hdark, collision_iff_of_dark hx hy hdark⟩

end Sys2Proof.Machine
end

section
/-! PROOFS. The block and its host (60_exceptions R209, R217; 70_reset_and_hazards R231; 10_state R36): the operations
that fault, and the obligations ReadsChangeNothing, NothingBeforePowerOn, FaultsLeaveNoTrace and
OperationFaultMatrix. -/

namespace Sys2Proof.Machine

/-! The operations on a block that is powered on. -/

theorem operate_load (bytes : List Byte) (s : State) : operate (.load bytes) (some s) = quiet (load bytes s) := rfl

theorem operate_step (s : State) : operate .step (some s) = quiet (step s) := rfl

theorem quiet_fault {o : Outcome} {f : Fault} : quiet o = .fault f ↔ o = .fault f := by
  cases o <;> simp [quiet]

theorem quiet_next {o : Outcome} {t : State} {out : Output} :
    quiet o = .next (t, out) ↔ o = .next t ∧ out = .done := by
  cases o <;> simp [quiet, eq_comm]

theorem withCollision_fault {o : Host.Outcome (State × Bool) Fault Refusal} {f : Fault} :
    withCollision o = .fault f ↔ o = .fault f := by
  cases o <;> simp [withCollision]

/-- A `Draw` that gives an output has a next state and a collision bit. -/
theorem withCollision_next {o : Host.Outcome (State × Bool) Fault Refusal} {t : State} {out : Output}
    (h : withCollision o = .next (t, out)) : ∃ c, o = .next (t, c) := by
  cases o with
  | next r =>
    cases h
    exact ⟨_, rfl⟩
  | fault | refused => cases h

/-- Before `PowerOn` every operation but `PowerOn` is refused (70_reset_and_hazards R231). -/
theorem operate_none {op : HostOp} (h : op ≠ .powerOn) : operate op none = .refused .notPoweredOn := by
  cases op with
  | powerOn => exact absurd rfl h
  | _ => rfl

theorem operate_powerOn (b : Block) : operate .powerOn b = .next (State.reset, .done) := by
  cases b <;> rfl

/-- Only a block that is powered on faults. -/
theorem operate_fault {b : Block} {op : HostOp} {f : Fault} (h : operate op b = .fault f) :
    ∃ s, b = some s ∧ operateOn op s = .fault f := by
  cases b with
  | some s => exact ⟨s, rfl, h⟩
  | none =>
    by_cases hop : op = .powerOn
    · rw [hop, operate_powerOn] at h
      cases h
    · rw [operate_none hop] at h
      cases h

theorem load_fault {bytes : List Byte} {s : State} {f : Fault} (h : load bytes s = .fault f) :
    f = .imageTooLarge bytes.length := by
  by_cases hlen : bytes.length ≤ 3584
  · rw [load_of_le s hlen] at h
    cases h
  · rw [load_of_gt s (by omega)] at h
    cases h
    rfl

theorem draw_fault {x y w h : Byte} {s : State} {f : Fault} (hd : draw x y w h s = .fault f) :
    f = .displayBoundsExceeded x y w h := by
  by_cases hfit : x.toNat + w.toNat ≤ 64 ∧ y.toNat + h.toNat ≤ 32
  · rw [draw_of_fits s hfit.1 hfit.2] at hd
    cases hd
  · rw [draw_of_exceeds s (by omega)] at hd
    cases hd
    rfl

/-! The obligations. -/

/-- Settles O50: both operations answer with the state they were given. -/
theorem readsChangeNothing : Obligations.ReadsChangeNothing :=
  fun s => ⟨⟨s.display, rfl, fun _ _ _ _ => rfl⟩, rfl⟩

/-- Settles O51: the operation is refused, and a refusal leaves the block as it was. -/
theorem nothingBeforePowerOn : Obligations.NothingBeforePowerOn := by
  intro op hop
  have href := operate_none hop
  exact ⟨href, by rw [Block.after, href]⟩

/-- Settles O52: the block after a fault is the block before it, on which the operation faults. -/
theorem faultsLeaveNoTrace : Obligations.FaultsLeaveNoTrace := by
  intro b op f hf
  have hb := after_of_fault hf
  exact ⟨hb, hb.symm ▸ hf⟩

/-- Settles O53: the faults of `load`, `draw` and `step`; `pc` 4095, the state after power-on and the word 0x00EE at
address 0 raise the three of `step`. -/
theorem operationFaultMatrix : Obligations.OperationFaultMatrix := by
  refine ⟨fun b op f hf => ?_, ⟨{ State.reset with pc := 4095 }, 4095, rfl⟩, ⟨State.reset, 0x0000, rfl⟩,
    ⟨{ State.reset with mem := [(1, 0xEE)] }, rfl⟩⟩
  obtain ⟨s, rfl, hf⟩ := operate_fault hf
  cases op with
  | powerOn | reset | readDisplay | readState => cases hf
  | load bytes => exact load_fault (quiet_fault.1 hf)
  | draw x y w h => exact draw_fault (withCollision_fault.1 hf)
  | step =>
    obtain ⟨hp, -⟩ | ⟨u, hu, -⟩ | ⟨hst, -⟩ := step_fault_cases (quiet_fault.1 hf)
    · exact .inl ⟨_, hp⟩
    · exact .inr (.inl ⟨u, hu⟩)
    · exact .inr (.inr hst)

end Sys2Proof.Machine
end

section
/-! PROOFS. The invariant of the block (10_state R26, 20_memory R51) and what changes each item of the state (10_state
R28 to R32), and the obligations ResetStateMeetsInvariant, StepKeepsInvariant, OperationsKeepInvariant and
WhoChangesWhat. -/

namespace Sys2Proof.Machine

/-! The invariant under a `Step`. -/

/-- From a `pc` that can be fetched, `pc` stays in its range: a skip adds at most 4, an address has 12 bits, and a
return address is in its range. -/
theorem nextPc_le {s : State} (hpc : s.pc.toNat + 1 < 4096) (hst : StackInRange s) (i : Instr) :
    (nextPc i s).toNat ≤ 4098 := by
  have h2 : (BitVec.ofNat 16 ((s.pc.toNat + 2) % 2 ^ 16)).toNat ≤ 4098 := by rw [BitVec.toNat_ofNat]; omega
  have h4 : (BitVec.ofNat 16 ((s.pc.toNat + 4) % 2 ^ 16)).toNat ≤ 4098 := by rw [BitVec.toNat_ofNat]; omega
  cases i with
  | jp nnn | call nnn =>
    have hlt := nnn.isLt
    simp only [nextPc, BitVec.toNat_ofNat]
    omega
  | ret =>
    obtain hs | ⟨st, v, hs⟩ := stack_cases s.stack
    · simp only [nextPc, hs, List.getLast?_nil, Option.getD_none]
      omega
    · have hv := (hst v (by simp [hs])).2
      simp only [Config.memSize] at hv
      simp only [nextPc, hs, List.getLast?_concat, Option.getD_some]
      omega
  | seImm | sneImm | seReg =>
    simp only [nextPc]
    split
    all_goals assumption
  | _ => exact h2

/-- From a `pc` that can be fetched, what `CALL` pushes is in range; `RET` pushes nothing. -/
theorem effect_stackInRange {s : State} (hpc : s.pc.toNat + 1 < 4096) (hst : StackInRange s) (i : Instr) :
    StackInRange (effect i s) := by
  cases i with
  | call nnn =>
    intro v hv
    obtain hv | hv := List.mem_append.1 hv
    · exact hst v hv
    · rw [List.mem_singleton.1 hv, Config.memSize]
      bv_omega
  | ret => exact fun v hv => hst v (List.mem_of_mem_dropLast hv)
  | _ => exact hst

theorem reset_inv : State.reset.Inv where
  mem := reset_memory_wf
  pc := Nat.zero_le _
  stack := fun _ hv => absurd hv List.not_mem_nil
  reserved := fun _ _ => rfl

/-- A `Step` keeps the invariant: `pc` by its table, the stack by what `CALL` pushes, and memory unchanged. -/
theorem step_inv {s t : State} (hs : s.Inv) (h : step s = .next t) : t.Inv := by
  obtain ⟨hmem, -, hstack, hclear⟩ := hs
  obtain ⟨i, hf, he⟩ := step_next h
  obtain ⟨hr, rfl⟩ := exec_next he
  have hlt := lt_of_fetch hf
  exact {
    mem := by rwa [effect_mem]
    pc := by
      rw [PcInRange, effect_pc hr]
      exact nextPc_le hlt hstack i
    stack := effect_stackInRange hlt hstack i
    reserved := by rwa [ReservedClear, effect_mem] }

/-! The invariant under the other operations. -/

/-- `Load` writes at `BASE` and above, inside memory. -/
theorem load_inv {bytes : List Byte} {s t : State} (hs : s.Inv) (h : load bytes s = .next t) : t.Inv := by
  obtain ⟨hmem, -, hstack, hclear⟩ := hs
  obtain ⟨hlen, rfl⟩ := load_next h
  exact {
    mem := memory_writeBytes_wf hmem (by omega)
    pc := show (512#16 : Word).toNat ≤ 4098 by decide
    stack := hstack
    reserved := fun a ha => (memory_read_writeBytes_outside (.inl ha)).trans (hclear a ha) }

theorem hostReset_inv {s : State} (hs : s.Inv) : (hostReset s).Inv :=
  { hs with pc := Nat.zero_le _ }

/-- The invariant does not speak of the display. -/
theorem inv_with_display {s : State} (hs : s.Inv) (p : Plane) : ({ s with display := p } : State).Inv :=
  { hs with }

/-- An operation that succeeds on a state that meets the invariant gives one that does. -/
theorem operateOn_inv {op : HostOp} {s t : State} {out : Output} (hs : s.Inv)
    (h : operateOn op s = .next (t, out)) : t.Inv := by
  cases op with
  | powerOn =>
    cases h
    exact reset_inv
  | load bytes => exact load_inv hs (quiet_next.1 h).1
  | reset =>
    cases h
    exact hostReset_inv hs
  | step => exact step_inv hs (quiet_next.1 h).1
  | draw x y w k =>
    obtain ⟨c, hd⟩ := withCollision_next h
    obtain ⟨-, rfl, -⟩ := draw_next hd
    exact inv_with_display hs _
  | readDisplay | readState =>
    cases h
    exact hs

/-- The same for a block: before `PowerOn` only `PowerOn` succeeds. -/
theorem operate_inv {b : Block} {op : HostOp} {t : State} {out : Output} (hb : Block.Inv b)
    (h : operate op b = .next (t, out)) : t.Inv := by
  cases b with
  | some s => exact operateOn_inv (hb s rfl) h
  | none =>
    by_cases hop : op = .powerOn
    · rw [hop, operate_powerOn] at h
      cases h
      exact reset_inv
    · rw [operate_none hop] at h
      cases h

/-- A block after an operation is the next state of the operation, or the block before it. -/
theorem after_inv {b : Block} (hb : Block.Inv b) (op : HostOp) : Block.Inv (b.after op) := by
  unfold Block.after
  split
  case h_1 r h =>
    rintro _ ⟨⟩
    exact operate_inv hb h
  case h_2 | h_3 => exact hb

/-- The invariant holds along every run. -/
theorem run_inv (ops : List HostOp) {b : Block} (hb : Block.Inv b) : Block.Inv (b.run ops) := by
  induction ops generalizing b with
  | nil => exact hb
  | cons op ops ih => exact ih (after_inv hb op)

/-! What a `Step` changes, and on which words. -/

theorem effect_v {i : Instr} (hd : i.dest = none) (s : State) : (effect i s).v = s.v := by
  refine Vector.ext fun r hr => Option.some_inj.1 ?_
  rw [← Vector.getElem?_eq_getElem hr, ← Vector.getElem?_eq_getElem hr]
  exact effect_v_of_dest (by simp [hd]) s

/-- The words of `RET` and `CALL`. -/
theorem encode_of_usesStack {i : Instr} (hu : i.usesStack = true) :
    encode i = 0x00EE#16 ∨ family (encode i) = 0x2#4 := by
  cases i with
  | ret => exact .inl rfl
  | call nnn => exact .inr (family_formatA ..)
  | _ => cases hu

/-- The words of the two flag-writing operations. -/
theorem encode_of_writesCarry {i : Instr} (hc : i.writesCarry = true) :
    family (encode i) = 0x8#4 ∧ (fieldN (encode i) = 0x4#4 ∨ fieldN (encode i) = 0x5#4) := by
  cases i with
  | addReg x y => exact ⟨family_formatRR .., .inl (fieldN_formatRR ..)⟩
  | sub x y => exact ⟨family_formatRR .., .inr (fieldN_formatRR ..)⟩
  | _ => cases hc

/-- The families of the instructions that write a register. -/
theorem family_encode_of_dest {i : Instr} (hd : i.dest ≠ none) :
    family (encode i) = 0x6#4 ∨ family (encode i) = 0x7#4 ∨ family (encode i) = 0x8#4 := by
  cases i with
  | ldImm => exact .inl (family_formatRI ..)
  | addImm => exact .inr (.inl (family_formatRI ..))
  | ldReg | or | and | xor | addReg | sub => exact .inr (.inr (family_formatRR ..))
  | _ => exact absurd rfl hd

section
variable {s t : State} (h : step s = .next t)
include h

theorem step_mem : t.mem = s.mem := by
  obtain ⟨i, -, he⟩ := step_next h
  obtain ⟨-, rfl⟩ := exec_next he
  exact effect_mem i s

/-- A `Step` that changes the display is on the word of `CLS`. -/
theorem fetch_of_step_display (hne : t.display ≠ s.display) : fetch s = .word 0x00E0#16 := by
  obtain ⟨i, hf, he⟩ := step_next h
  obtain ⟨-, rfl⟩ := exec_next he
  obtain rfl : i = .cls := by
    by_contra hi
    exact hne (effect_display hi s)
  exact hf

/-- A `Step` that changes the stack is on the word of `RET` or `CALL`. -/
theorem fetch_of_step_stack (hne : t.stack ≠ s.stack) :
    ∃ w, fetch s = .word w ∧ (w = 0x00EE#16 ∨ family w = 0x2#4) := by
  obtain ⟨i, hf, he⟩ := step_next h
  obtain ⟨-, rfl⟩ := exec_next he
  refine ⟨_, hf, encode_of_usesStack ?_⟩
  by_contra hu
  exact hne (effect_stack (Bool.eq_false_iff.2 hu) s)

/-- A `Step` that changes `CF` is on the word of a flag-writing operation. -/
theorem fetch_of_step_cf (hne : t.cf ≠ s.cf) :
    ∃ w, fetch s = .word w ∧ family w = 0x8#4 ∧ (fieldN w = 0x4#4 ∨ fieldN w = 0x5#4) := by
  obtain ⟨i, hf, he⟩ := step_next h
  obtain ⟨-, rfl⟩ := exec_next he
  refine ⟨_, hf, encode_of_writesCarry ?_⟩
  by_contra hc
  exact hne (effect_cf (Bool.eq_false_iff.2 hc) s)

/-- A `Step` that changes a register is on a word of family 6, 7 or 8. -/
theorem fetch_of_step_v (hne : t.v ≠ s.v) :
    ∃ w, fetch s = .word w ∧ (family w = 0x6#4 ∨ family w = 0x7#4 ∨ family w = 0x8#4) := by
  obtain ⟨i, hf, he⟩ := step_next h
  obtain ⟨-, rfl⟩ := exec_next he
  exact ⟨_, hf, family_encode_of_dest fun hd => hne (effect_v hd s)⟩

end

/-! The obligations. -/

/-- Settles O37: the fields of `State.reset`. -/
theorem resetStateMeetsInvariant : Obligations.ResetStateMeetsInvariant := reset_inv

/-- Settles O36: `step_inv`. -/
theorem stepKeepsInvariant : Obligations.StepKeepsInvariant := fun _ _ => step_inv

/-- Settles O38: each operation keeps the invariant, by which the run does, by induction along its operations. -/
theorem operationsKeepInvariant : Obligations.OperationsKeepInvariant :=
  ⟨fun _ op hb => after_inv hb op, fun ops => run_inv ops fun _ h => nomatch h⟩

/-- Settles O54: what each operation leaves as it was, and for `Step` the word of an instruction that does not. -/
theorem whoChangesWhat : Obligations.WhoChangesWhat := by
  intro s t op o h
  cases op with
  | powerOn => exact ⟨fun _ => .inl rfl, fun _ => .inl rfl, fun _ => .inl rfl, fun _ => .inl rfl, fun _ => .inl rfl⟩
  | load bytes =>
    obtain ⟨-, rfl⟩ := load_next (quiet_next.1 h).1
    exact ⟨fun _ => .inr ⟨bytes, rfl⟩, absurd rfl, absurd rfl, absurd rfl, absurd rfl⟩
  | reset =>
    cases h
    exact ⟨absurd rfl, absurd rfl, absurd rfl, fun _ => .inr (.inl rfl), fun _ => .inr (.inl rfl)⟩
  | step =>
    have hs := (quiet_next.1 h).1
    exact ⟨fun hne => absurd (step_mem hs) hne,
      fun hne => .inr (.inr ⟨rfl, fetch_of_step_display hs hne⟩),
      fun hne => .inr ⟨rfl, fetch_of_step_stack hs hne⟩,
      fun hne => .inr (.inr ⟨rfl, fetch_of_step_cf hs hne⟩),
      fun hne => .inr (.inr ⟨rfl, fetch_of_step_v hs hne⟩)⟩
  | draw x y w k =>
    obtain ⟨c, hd⟩ := withCollision_next h
    obtain ⟨-, rfl, -⟩ := draw_next hd
    exact ⟨absurd rfl, fun _ => .inr (.inl ⟨x, y, w, k, rfl⟩), absurd rfl, absurd rfl, absurd rfl⟩
  | readDisplay | readState =>
    cases h
    exact ⟨absurd rfl, absurd rfl, absurd rfl, absurd rfl, absurd rfl⟩

end Sys2Proof.Machine
end
